-- ==== Sys2Proof/Word.lean ====
section
/-! DEFINITION. The words of the block: command and response words, samples, register values. -/

namespace Sys2Proof

/-- A command word or a response word (30_encoding.md R50, R53). -/
abbrev Word := BitVec 64

/-- A window cell's contents: 25 bits, two's complement (20_memory.md R32). -/
abbrev Sample := BitVec 25

/-- One byte of a byte-wide channel (20_memory.md R39). -/
abbrev Byte := BitVec 8

end Sys2Proof
end

