-- ==== Sys2Proof/Syntax.lean ====
section
/-! DEFINITION. The eight commands, one constructor per row of spec/opcode_table.json. -/

namespace Sys2Proof

/-- The four confidence levels, best to worst (44_signal_judge.md R105). -/
inductive SignalJudge where
  | A | B | C | D
  deriving DecidableEq, Repr, Inhabited

/-- A command with its operands as 30_encoding.md R52 reads them: unsigned fields as naturals, `val` as
a two's-complement integer. Operand order is the assembler's (R59). -/
inductive Instr where
  /-- CONFIG: set the sample rate (samples per second) and the low frequency (1/32 Hz), R70. -/
  | config (sr lf : Nat)
  /-- RDREG: read one register by number, R73. -/
  | rdreg (reg : Nat)
  /-- WSAMP: write one raw sample into a window cell, R80. -/
  | wsamp (idx : Nat) (val : Int)
  /-- NEXTB: find the next boundary after a start position, R88. -/
  | nextb (pos : Nat)
  /-- ISHF: classify the interval between two positions, R100. -/
  | ishf (pos1 pos2 : Nat)
  /-- JUDGE: confidence level of the bit interval that starts at `pos1`, R106. -/
  | judge (pos1 pos2 : Nat) (hint : Bool)
  /-- WORST: the worse of two levels, R110. -/
  | worst (a b : SignalJudge)
  /-- SRST: end the session, R75. -/
  | srst
  deriving DecidableEq, Repr

/-- CONFIGHZ (30_encoding.md R60): the low frequency in whole hertz. -/
abbrev Instr.confighz (sr hz : Nat) : Instr := .config sr (32 * hz)

/-- RDSTAT (30_encoding.md R60). -/
abbrev Instr.rdstat : Instr := .rdreg 0

/-- RDT34 (30_encoding.md R60). -/
abbrev Instr.rdt34 : Instr := .rdreg 3

/-- RDT54 (30_encoding.md R60). -/
abbrev Instr.rdt54 : Instr := .rdreg 4

/-- RDT94 (30_encoding.md R60). -/
abbrev Instr.rdt94 : Instr := .rdreg 5

/-- RDWLEN (30_encoding.md R60). -/
abbrev Instr.rdwlen : Instr := .rdreg 6

end Sys2Proof
end

