-- ==== Sys2Proof/WellFormed.lean ====
section
/-! DEFINITION. Which commands have a word: every operand in the range of its field (30_encoding.md R52, R59). -/

namespace Sys2Proof

/-- An unsigned operand fits a field of `n` bits. -/
def fitsUnsigned (n v : Nat) : Bool := decide (v < 2 ^ n)

/-- A two's-complement operand fits the 25-bit field `val`. -/
def fitsVal (v : Int) : Bool := decide (-(2 ^ 24) ≤ v) && decide (v < 2 ^ 24)

/-- The operand ranges of 30_encoding.md R52. Whether the command then succeeds is its own rule: reserved
register numbers, illegal samples and positions outside the window are well-formed (R57). -/
def Instr.wellFormed : Instr → Bool
  | .config sr lf => fitsUnsigned 24 sr && fitsUnsigned 32 lf
  | .rdreg reg => fitsUnsigned 4 reg
  | .wsamp idx val => fitsUnsigned 16 idx && fitsVal val
  | .nextb pos => fitsUnsigned 16 pos
  | .ishf pos1 pos2 => fitsUnsigned 16 pos1 && fitsUnsigned 16 pos2
  | .judge pos1 pos2 _ => fitsUnsigned 16 pos1 && fitsUnsigned 16 pos2
  | .worst _ _ => true
  | .srst => true

end Sys2Proof
end

