-- ==== Sys2Proof/Decode.lean ====
section
/-! DEFINITION. Command words to commands and back (30_encoding.md R50 to R56), and the byte-wide channel (20_memory.md R39). -/

namespace Sys2Proof

/-- The rows of the opcode map (30_encoding.md R54). -/
inductive Opcode where
  | config | rdreg | wsamp | nextb | ishf | judge | worst | srst
  deriving DecidableEq, Repr

/-- Why a word is no command (30_encoding.md R56). The block answers each with ERR_ILLEGAL. -/
inductive Reject where
  /-- (a): the opcode is 0x0 or 0x9 to 0xF. -/
  | reservedOpcode
  /-- (b): a must-be-zero bit of the opcode's format is 1. -/
  | mustBeZero
  /-- A byte-wide channel holds fewer than the eight bytes of a word (20_memory.md R39). -/
  | truncated
  deriving DecidableEq, Repr

/-- All rows, in the table's order. -/
def opcodes : List Opcode := [.config, .rdreg, .wsamp, .nextb, .ishf, .judge, .worst, .srst]

/-- Column `match` of 30_encoding.md R54. -/
def opcodeMatch : Opcode → Word
  | .config => 0x1000000000000000
  | .rdreg  => 0x2000000000000000
  | .wsamp  => 0x3000000000000000
  | .nextb  => 0x4000000000000000
  | .ishf   => 0x5000000000000000
  | .judge  => 0x6000000000000000
  | .worst  => 0x7000000000000000
  | .srst   => 0x8000000000000000

/-- Column `mask` of 30_encoding.md R54: the opcode and every must-be-zero bit. -/
def opcodeMask : Opcode → Word
  | .config => 0xFF00000000000000
  | .rdreg  => 0xFFFFFFFFFFFFFFF0
  | .wsamp  => 0xFFFF0000FE000000
  | .nextb  => 0xFFFFFFFFFFFF0000
  | .ishf   => 0xFFFFFFFF00000000
  | .judge  => 0xFFFFFFFE00000000
  | .worst  => 0xFFFFFFFFFFFFFFF0
  | .srst   => 0xFFFFFFFFFFFFFFFF

/-- `w` is the command of the row (30_encoding.md R54). -/
def matchesRow (w : Word) (o : Opcode) : Bool := (w &&& opcodeMask o) == opcodeMatch o

/-- The field of `len` bits from bit `lo` upward, unsigned (00_scope.md R7). -/
def field (w : Word) (lo len : Nat) : Nat := (w.extractLsb' lo len).toNat

/-- `sint_25` of bits 24:0 (30_encoding.md R52). -/
def valField (w : Word) : Int := (w.extractLsb' 0 25).toInt

/-- The level a two-bit number stands for (30_encoding.md R52); numbers are taken modulo 4. -/
def levelOfNat (n : Nat) : SignalJudge :=
  if n % 4 = 0 then .A else if n % 4 = 1 then .B else if n % 4 = 2 then .C else .D

/-- The number of a level: A = 0, B = 1, C = 2, D = 3 (44_signal_judge.md R105). -/
def levelNat : SignalJudge → Nat
  | .A => 0
  | .B => 1
  | .C => 2
  | .D => 3

/-- The operands of a word of the given row (30_encoding.md R51, R52). -/
def operands (w : Word) : Opcode → Instr
  | .config => .config (field w 32 24) (field w 0 32)
  | .rdreg  => .rdreg (field w 0 4)
  | .wsamp  => .wsamp (field w 32 16) (valField w)
  | .nextb  => .nextb (field w 0 16)
  | .ishf   => .ishf (field w 0 16) (field w 16 16)
  | .judge  => .judge (field w 0 16) (field w 16 16) (field w 32 1 == 1)
  | .worst  => .worst (levelOfNat (field w 0 2)) (levelOfNat (field w 2 2))
  | .srst   => .srst

/-- Which of the two grounds of 30_encoding.md R56 refuses a word that no row matches. -/
def rejectReason (w : Word) : Reject :=
  if field w 60 4 = 0 ∨ 9 ≤ field w 60 4 then .reservedOpcode else .mustBeZero

/-- The decoder: total on 64-bit words, no state needed (30_encoding.md R55). -/
def decode (w : Word) : Except Reject Instr :=
  match opcodes.find? (matchesRow w) with
  | some o => .ok (operands w o)
  | none => .error (rejectReason w)

/-- The row of a command. -/
def opcodeOf : Instr → Opcode
  | .config _ _ => .config
  | .rdreg _ => .rdreg
  | .wsamp _ _ => .wsamp
  | .nextb _ => .nextb
  | .ishf _ _ => .ishf
  | .judge _ _ _ => .judge
  | .worst _ _ => .worst
  | .srst => .srst

/-- The word of a well-formed command: the bit pictures of 30_encoding.md R51, most significant field first. -/
def encode : Instr → Word
  | .config sr lf => 0x1#4 ++ 0#4 ++ BitVec.ofNat 24 sr ++ BitVec.ofNat 32 lf
  | .rdreg reg => 0x2#4 ++ 0#56 ++ BitVec.ofNat 4 reg
  | .wsamp idx val => 0x3#4 ++ 0#12 ++ BitVec.ofNat 16 idx ++ 0#7 ++ BitVec.ofInt 25 val
  | .nextb pos => 0x4#4 ++ 0#44 ++ BitVec.ofNat 16 pos
  | .ishf pos1 pos2 => 0x5#4 ++ 0#28 ++ BitVec.ofNat 16 pos2 ++ BitVec.ofNat 16 pos1
  | .judge pos1 pos2 hint =>
      0x6#4 ++ 0#27 ++ BitVec.ofBool hint ++ BitVec.ofNat 16 pos2 ++ BitVec.ofNat 16 pos1
  | .worst a b => 0x7#4 ++ 0#56 ++ BitVec.ofNat 2 (levelNat b) ++ BitVec.ofNat 2 (levelNat a)
  | .srst => 0x8#4 ++ 0#60

/-- The `n` low bytes of a word, bits 7:0 first (20_memory.md R39). -/
def wordBytesFrom (w : Word) : Nat → Nat → List Byte
  | _, 0 => []
  | k, n + 1 => w.extractLsb' (8 * k) 8 :: wordBytesFrom w (k + 1) n

/-- A word as a byte-wide channel carries it: eight bytes, little-endian (20_memory.md R39). -/
def wordBytes (w : Word) : List Byte := wordBytesFrom w 0 8

/-- The word the next eight bytes of a byte-wide channel carry, with the bytes after it. -/
def takeWord : List Byte → Option (Word × List Byte)
  | b0 :: b1 :: b2 :: b3 :: b4 :: b5 :: b6 :: b7 :: rest =>
      some (b7 ++ b6 ++ b5 ++ b4 ++ b3 ++ b2 ++ b1 ++ b0, rest)
  | _ => none

/-- Decoding from a byte-wide channel: total on any bytes, with the bytes after the command. -/
def decodeBytes (bs : List Byte) : Except Reject (Instr × List Byte) :=
  match takeWord bs with
  | none => .error .truncated
  | some (w, rest) =>
    match decode w with
    | .ok i => .ok (i, rest)
    | .error r => .error r

/-- What the decoder reads from a word given as the opcode table numbers its bits (bits above `nbits` zero). -/
def decodeTableWord (nbits w : Nat) : Option Instr :=
  match decodeBytes (wordBytes (BitVec.ofNat 64 (w % 2 ^ nbits))) with
  | .ok (i, _) => some i
  | .error _ => none

end Sys2Proof
end

