-- ==== Sys2Proof/Config.lean ====
section
/-! DEFINITION. The parameters of an instantiation (00_scope.md R6) and the one value the spec leaves free. -/

namespace Sys2Proof

/-- Which `JUDGE_FN` the block is instantiated with (44_signal_judge.md R107). Plain data, so that State can
name it: the spec's default, or the free function `Config.openJudge`. -/
inductive JudgeFn where
  /-- `JUDGE_DEFAULT` (44_signal_judge.md R108). -/
  | judgeDefault
  /-- The open parameter: `Config.openJudge`, about which nothing is known. -/
  | free
  deriving DecidableEq, Repr

/-- FREE VALUE (notes/assumptions/6.md). `JUDGE_FN(s34, s54, mn, mx, hint)`, OPEN in 92_eei_decisions.md D13:
what holds of the block with this function holds for every `JUDGE_FN` (44_signal_judge.md R107). -/
opaque Config.openJudge (s34 s54 mn mx : Int) (hint : Bool) : SignalJudge

/-- The default half-window size `H` (00_scope.md R6). -/
def Config.defaultHalfWindow : Nat := 512

/-- The least legal `H` (00_scope.md R6). -/
def Config.minHalfWindow : Nat := 1

/-- The greatest legal `H` (00_scope.md R6). -/
def Config.maxHalfWindow : Nat := 32768

/-- `N34`: the numerator of 2.75/8 = 11/32 (00_scope.md R6, 40_timing_generator.md R71). -/
def Config.n34 : Nat := 11

/-- `N54`: the numerator of 5.25/8 = 21/32. -/
def Config.n54 : Nat := 21

/-- `N94`: the numerator of 8.25/8 = 33/32. -/
def Config.n94 : Nat := 33

/-- `T94_BIAS`: added to `t94` after the floor (00_scope.md R6). -/
def Config.t94Bias : Nat := 1

/-- The raw value of a sample of +1.0, `2^FRAC` (00_scope.md R6, 20_memory.md R32). -/
def Config.fullScale : Int := 8388608

end Sys2Proof
end

