-- ==== Sys2Proof/Machine/State.lean ====
section
/-! DEFINITION. The machine's state (10_state.md), its reset value (R27), and the reasons a step can stop. -/

namespace Sys2Proof.Machine

open Sys2Proof

/-- The errors a command can raise (60_exceptions.md R120, codes 1 to 7). Code 15, ERR_HALTED, is a refusal of
the block's and never stored; codes 8 to 14 do not exist. -/
inductive ErrorCode where
  | illegal | nocfg | locked | cfg | range | uninit | sample
  deriving DecidableEq, Repr

/-- The five registers a successful CONFIG writes together (10_state.md R13 to R17). -/
structure Timing where
  /-- REG.SAMPLERATE, samples per second (R13). -/
  sampleRate : BitVec 24
  /-- REG.LOWFREQ, units of 1/32 Hz (R14). -/
  lowFreq : BitVec 32
  /-- REG.T34, search start offset (R15). -/
  t34 : BitVec 32
  /-- REG.T54, the boundary between the two cycle lengths (R16). -/
  t54 : BitVec 32
  /-- REG.T94, look-ahead horizon (R17). -/
  t94 : BitVec 32
  deriving DecidableEq, Repr

/-- The window memory `WIN`: (index, sample) pairs, indexes strictly rising; an unlisted cell holds no value
(20_memory.md R30, 10_state.md R27, notes/assumptions/5.md). -/
abbrev Memory := List (Nat × Sample)

/-- The block (10_state.md R10) and, in the last two fields, the host's side of its ports. -/
structure State where
  /-- The parameter `H` of this instantiation (00_scope.md R6); no step changes it (notes/assumptions/3.md). -/
  halfWindow : Nat
  /-- The parameter `JUDGE_FN` of this instantiation (44_signal_judge.md R107); no step changes it
  (notes/assumptions/6.md). -/
  judgeFn : JudgeFn
  /-- SAMPLERATE, LOWFREQ, T34, T54, T94: all hold values, or none does; STATUS.CFG_VALID says which
  (10_state.md R19, notes/assumptions/4.md). -/
  timing : Option Timing
  /-- STATUS.ERR: the first error since reset (10_state.md R19). -/
  err : Option ErrorCode
  /-- REG.RESP: the most recent response word (10_state.md R21). -/
  resp : Word
  /-- WIN (20_memory.md R30). -/
  win : Memory
  /-- The command words the host has yet to send, next first (70_reset_and_hazards.md R166, notes/assumptions/1.md). -/
  commands : List Word
  /-- The responses the host has been given, oldest first (70_reset_and_hazards.md R166, notes/assumptions/1.md). -/
  responses : List Word
  deriving DecidableEq, Repr

/-- Why a step stops with a fault. -/
inductive Fault where
  /-- Raised by NEXTB and JUDGE, only in a state no run reaches: the timing registers are out of the order
  10_state.md R17 and R18 give them (T94 = 0, so that the search range has no cell; or a sampling point of
  JUDGE at or past the end of the range). Safe: the spec gives such a state no behaviour (notes/assumptions/8.md). -/
  | timingOrder
  deriving DecidableEq, Repr

/-- Why a step is refused. -/
inductive Refusal where
  /-- An instruction with no meaning yet, refused by name. No arm of this model raises it. Safe. -/
  | notModelled (mnemonic : String)
  deriving DecidableEq, Repr

/-- The block right after reset (10_state.md R27) in the default instantiation (00_scope.md R6), with a host that
has sent nothing. -/
def State.reset : State where
  halfWindow := Config.defaultHalfWindow
  judgeFn := .judgeDefault
  timing := none
  err := none
  resp := 0
  win := []
  commands := []
  responses := []

end Sys2Proof.Machine
end

