-- ==== Sys2Proof/Machine/Ops.lean ====
section
/-! DEFINITION. The named operations: window access, responding, raising an error (the one shared entry), refusing on a
halted block, reset, and taking the host's next command. -/

namespace Sys2Proof.Machine

open Sys2Proof

/-- What a command's meaning answers. -/
abbrev Result := Host.Outcome State Fault Refusal

/-! ### The window memory -/

/-- What a cell holds, if it holds a value (20_memory.md R30). -/
def Memory.read (i : Nat) : Memory → Option Sample
  | [] => none
  | (j, v) :: m => if i = j then some v else Memory.read i m

/-- The window after cell `i` was given the value `v`, in canonical form (20_memory.md R37). -/
def Memory.write (i : Nat) (v : Sample) : Memory → Memory
  | [] => [(i, v)]
  | (j, u) :: m =>
    if i < j then (i, v) :: (j, u) :: m
    else if i = j then (i, v) :: m
    else (j, u) :: Memory.write i v m

/-- The canonical form: indexes strictly rising. (No entry can equal what an unlisted cell reads as, no value.) -/
abbrev Memory.wf (m : Memory) : Prop := (m.map Prod.fst).Pairwise (· < ·)

/-- `MemRead(i, 1)`: the cell's integer value, or ERR_UNINIT (20_memory.md R36). -/
def memRead (s : State) (i : Nat) : Except ErrorCode Int :=
  match Memory.read i s.win with
  | some v => .ok v.toInt
  | none => .error .uninit

/-- `MemWrite(i, 1, v)`: the cell now holds `v`; no other cell changes (20_memory.md R37). -/
def memWrite (i : Nat) (v : Int) (s : State) : State :=
  { s with win := Memory.write i (BitVec.ofInt 25 v) s.win }

/-- `L = 2*H` (00_scope.md R6); also the constant REG.WLEN (10_state.md R20). -/
def windowLength (s : State) : Nat := 2 * s.halfWindow

/-! ### Responses and errors -/

/-- The code of an error (60_exceptions.md R120). -/
def errorNumber : ErrorCode → BitVec 4
  | .illegal => 1
  | .nocfg => 2
  | .locked => 3
  | .cfg => 4
  | .range => 5
  | .uninit => 6
  | .sample => 7

/-- A response word: code in 63:60, zero in 59:32, value in 31:0 (30_encoding.md R53). -/
def responseWord (code : BitVec 4) (value : BitVec 32) : Word := code ++ 0#28 ++ value

/-- Latch a response in REG.RESP (10_state.md R21) and give it to the host. -/
def answer (w : Word) (s : State) : State := { s with resp := w, responses := s.responses ++ [w] }

/-- `respond(v)`: code OK and the value (00_scope.md R7, 30_encoding.md R53). -/
def respond (v : BitVec 32) (s : State) : State := answer (responseWord 0 v) s

/-- `raise E`: STATUS.ERR takes the code, the response is the code with value 0, and nothing else changes
(60_exceptions.md R121). The block is then halted. -/
def raise (e : ErrorCode) (s : State) : State :=
  answer (responseWord (errorNumber e) 0) { s with err := some e }

/-- The answer of a halted block, ERR_HALTED: nothing changes but REG.RESP (60_exceptions.md R122, R124). -/
def refuseHalted (s : State) : State := answer (responseWord 15 0) s

/-- The block is halted exactly when `STATUS.ERR != 0` (10_state.md R19). -/
def halted (s : State) : Bool := s.err.isSome

/-- Step 1 of the common checks: on a halted block the command is not performed (60_exceptions.md R122). -/
def unlessHalted (s : State) (r : Result) : Result :=
  if halted s then .next (refuseHalted s) else r

/-- An illegal word: ERR_ILLEGAL, or ERR_HALTED on a halted block (60_exceptions.md R122). -/
def illegalWord (s : State) : Result := unlessHalted s (.next (raise .illegal s))

/-! ### Reset -/

/-- The reset of the block (70_reset_and_hazards.md R140); the parameters and the host's side stay. -/
def resetBlock (s : State) : State :=
  { s with timing := none, err := none, resp := 0, win := [] }

/-- The `RST` input (70_reset_and_hazards.md R140a): the block is in the reset state and gives no response. It is no
step of a run (93_implementation_defined.md I27, notes/assumptions/2.md). -/
def pulseRst (s : State) : State := resetBlock s

/-- A block instantiated with `H` and `JUDGE_FN`, just reset, whose host has the given words to send (the start of
a run, 70_reset_and_hazards.md R166); none where there is no such block (93_implementation_defined.md I6). -/
def instantiate (h : Nat) (j : JudgeFn) (cmds : List Word) : Option State :=
  if Config.minHalfWindow ≤ h ∧ h ≤ Config.maxHalfWindow then
    some { State.reset with halfWindow := h, judgeFn := j, commands := cmds }
  else none

/-! ### The command port -/

/-- The host's next command word, and the state once the block has taken it (70_reset_and_hazards.md R141). -/
def takeCommand (s : State) : Option (Word × State) :=
  match s.commands with
  | [] => none
  | w :: rest => some (w, { s with commands := rest })

/-- Put a word in front of what the host has yet to send. -/
def offerCommand (w : Word) (s : State) : State := { s with commands := w :: s.commands }

end Sys2Proof.Machine
end

