-- ==== Sys2Proof/Machine/Flags.lean ====
section
/-! DEFINITION. STATUS (10_state.md R19): its two fields and the 32-bit view RDREG 0 answers. No command sets a flag from
its result. -/

namespace Sys2Proof.Machine

open Sys2Proof

/-- STATUS.CFG_VALID: the five timing registers hold values (10_state.md R19). -/
def cfgValid (s : State) : Bool := s.timing.isSome

/-- STATUS.ERR: 0, or the code of the first error since reset (10_state.md R19). -/
def errField (s : State) : BitVec 4 :=
  match s.err with
  | none => 0
  | some e => errorNumber e

/-- STATUS as a 32-bit value: ERR in 7:4, CFG_VALID in bit 0, every other bit 0 (10_state.md R19). -/
def statusWord (s : State) : BitVec 32 := 0#24 ++ errField s ++ 0#3 ++ BitVec.ofBool (cfgValid s)

end Sys2Proof.Machine
end

