-- ==== Sys2Proof/Machine/Operands.lean ====
section
/-! DEFINITION. Operand forms: register numbers (10_state.md R22), the search range of a position (42_boundary_search.md
R85), and the adaptive thresholds over it (R86). -/

namespace Sys2Proof.Machine

open Sys2Proof

/-- A register that holds a value only when the block is configured (10_state.md R22). -/
def configuredValue (s : State) (get : Timing → BitVec 32) : Except ErrorCode (BitVec 32) :=
  match s.timing with
  | none => .error .nocfg
  | some t => .ok (get t)

/-- The register with a number, zero-extended to 32 bits, or the error RDREG raises (10_state.md R22,
40_timing_generator.md R73). -/
def registerValue (s : State) : Nat → Except ErrorCode (BitVec 32)
  | 0 => .ok (statusWord s)
  | 1 => configuredValue s (fun t => t.sampleRate.setWidth 32)
  | 2 => configuredValue s (fun t => t.lowFreq)
  | 3 => configuredValue s (fun t => t.t34)
  | 4 => configuredValue s (fun t => t.t54)
  | 5 => configuredValue s (fun t => t.t94)
  | 6 => .ok (BitVec.ofNat 32 (windowLength s))
  | _ => .error .illegal

/-- `limit(s) = min(s + REG.T94, L)`, the exclusive end of the search range (42_boundary_search.md R85). -/
def searchLimit (s : State) (t : Timing) (start : Nat) : Nat :=
  min (start + t.t94.toNat) (windowLength s)

/-- `MemRead` of the `n` cells from `i` upward: their values, or ERR_UNINIT if any holds none (20_memory.md R38). -/
def readCells (s : State) (i : Nat) : Nat → Except ErrorCode (List Int)
  | 0 => .ok []
  | n + 1 =>
    match memRead s i with
    | .error e => .error e
    | .ok v =>
      match readCells s (i + 1) n with
      | .error e => .error e
      | .ok vs => .ok (v :: vs)

/-- The cells of the search range `[start, limit)` (42_boundary_search.md R85). -/
def readRange (s : State) (t : Timing) (start : Nat) : Except ErrorCode (List Int) :=
  readCells s start (searchLimit s t start - start)

/-- The extremes of a range and the scaled thresholds (00_scope.md R8, 42_boundary_search.md R86). -/
structure Thresholds where
  mx : Int
  mn : Int
  /-- twice `avg` -/
  avg2 : Int
  /-- eight times `high` -/
  high8 : Int
  /-- eight times `low` -/
  low8 : Int
  deriving DecidableEq, Repr

/-- The thresholds of the extremes (42_boundary_search.md R86). -/
def thresholdsOf (mx mn : Int) : Thresholds where
  mx := mx
  mn := mn
  avg2 := mx + mn
  high8 := 5 * mx + 3 * mn
  low8 := 3 * mx + 5 * mn

/-- `THRESH` on the values of a search range; a range without a cell has no extremes (42_boundary_search.md R86). -/
def thresholds : List Int → Option Thresholds
  | [] => none
  | c :: cs => some (thresholdsOf (cs.foldl max c) (cs.foldl min c))

/-- `WIN[p]` as `THRESH` has read it, for a position `p` of the range that starts at `start`. -/
def sampleAt (cells : List Int) (start p : Nat) : Option Int := cells[p - start]?

end Sys2Proof.Machine
end

