-- ==== Sys2Proof/Machine/Boundary.lean ====
section
/-! DEFINITION. NEXTB, the zero-crossing detector (42_boundary_search.md). -/

namespace Sys2Proof.Machine

open Sys2Proof

/-- `while p < limit and keep(p): p <- p + 1`, with `fuel = limit - p` at the start. -/
def advanceWhile (keep : Nat → Bool) : (fuel p : Nat) → Nat
  | 0, p => p
  | fuel + 1, p => if keep p then advanceWhile keep fuel (p + 1) else p

/-- `while p > spos and keep(p): p <- p - 1`, with `fuel = p - spos` at the start. -/
def retreatWhile (keep : Nat → Bool) : (fuel p : Nat) → Nat
  | 0, p => p
  | fuel + 1, p => if keep p then retreatWhile keep fuel (p - 1) else p

/-- `8 * WIN[p] > LOW8`: above `low`, strictly (42_boundary_search.md R91). -/
def aboveLow (th : Thresholds) (c : Int) : Bool := decide (th.low8 < 8 * c)

/-- `8 * WIN[p] < HIGH8`: below `high`, strictly (R91). -/
def belowHigh (th : Thresholds) (c : Int) : Bool := decide (8 * c < th.high8)

/-- `2 * WIN[p] > AVG2`: still above `avg`, strictly (R91). -/
def aboveAvg (th : Thresholds) (c : Int) : Bool := decide (th.avg2 < 2 * c)

/-- `2 * WIN[p] >= AVG2`: at or above `avg` (R91). -/
def atOrAboveAvg (th : Thresholds) (c : Int) : Bool := decide (th.avg2 ≤ 2 * c)

/-- Where phase 2 ends, starting from `spos`: phase 1 waits for a dip, phase 2 for a rise, both bounded by `limit`
(42_boundary_search.md R88). -/
def scanEnd (cells : List Int) (th : Thresholds) (start spos limit : Nat) : Nat :=
  let p1 := advanceWhile (fun p => (sampleAt cells start p).any (aboveLow th)) (limit - spos) spos
  advanceWhile (fun p => (sampleAt cells start p).any (belowHigh th)) (limit - p1) p1

/-- The backward walk from `p`, bounded below by `spos` (42_boundary_search.md R88, R95). -/
def walkBack (cells : List Int) (th : Thresholds) (start spos p : Nat) : Nat :=
  retreatWhile (fun q => (sampleAt cells start q).any (atOrAboveAvg th)) (p - spos) p

/-- The position NEXTB answers, from the cells of the range `[start, limit)`, their thresholds and T34
(42_boundary_search.md R88; the exhausted scan R90, the short range R93). -/
def nextBoundary (cells : List Int) (th : Thresholds) (start limit t34 : Nat) : Nat :=
  let spos := start + t34
  let p := scanEnd cells th start spos limit
  if limit ≤ p then
    if (sampleAt cells start (limit - 1)).any (aboveAvg th) then limit - 1
    else walkBack cells th start spos (limit - 1)
  else walkBack cells th start spos p

/-- NEXTB (42_boundary_search.md R88): ERR_NOCFG, ERR_RANGE, ERR_UNINIT in that order. -/
def execNextb (pos : Nat) (s : State) : Result :=
  unlessHalted s <|
    match s.timing with
    | none => .next (raise .nocfg s)
    | some t =>
      if windowLength s ≤ pos then .next (raise .range s)
      else
        match readRange s t pos with
        | .error e => .next (raise e s)
        | .ok cells =>
          match thresholds cells with
          | none => .fault .timingOrder
          | some th =>
            .next (respond (BitVec.ofNat 32
              (nextBoundary cells th pos (searchLimit s t pos) t.t34.toNat)) s)

end Sys2Proof.Machine
end

