-- ==== Sys2Proof/Machine/Classifier.lean ====
section
/-! DEFINITION. ISHF, the frequency classifier (43_frequency_classifier.md). -/

namespace Sys2Proof.Machine

open Sys2Proof

/-- `pos2 - pos1 <= T54`, a signed difference that never wraps (43_frequency_classifier.md R100). -/
def isHighFrequency (t : Timing) (pos1 pos2 : Nat) : Bool :=
  decide ((pos2 : Int) - (pos1 : Int) ≤ (t.t54.toNat : Int))

/-- ISHF (43_frequency_classifier.md R100): 1 for high-frequency, 0 for low-frequency. -/
def execIshf (pos1 pos2 : Nat) (s : State) : Result :=
  unlessHalted s <|
    match s.timing with
    | none => .next (raise .nocfg s)
    | some t => .next (respond (if isHighFrequency t pos1 pos2 then 1 else 0) s)

end Sys2Proof.Machine
end

