-- ==== Sys2Proof/Machine/Judge.lean ====
section
/-! DEFINITION. JUDGE and WORST, the diagnostic confidence tag (44_signal_judge.md). -/

namespace Sys2Proof.Machine

open Sys2Proof

/-- `region(s)` of JUDGE_DEFAULT, tested in the order written (44_signal_judge.md R108). -/
def judgeRegion (th : Thresholds) (c : Int) : Nat :=
  if 8 * c ≤ th.low8 then 0
  else if 2 * c < th.avg2 then 1
  else if 8 * c < th.high8 then 2
  else 3

/-- `|a - b|` of two regions. -/
def regionDistance (a b : Nat) : Nat := (a - b) + (b - a)

/-- JUDGE_DEFAULT (44_signal_judge.md R108): the larger distance from the pattern expected for the hint. -/
def judgeDefault (s34 s54 mn mx : Int) (hint : Bool) : SignalJudge :=
  let th := thresholdsOf mx mn
  let e34 := if hint then 0 else 3
  let e54 := if hint then 3 else 0
  levelOfNat (max (regionDistance (judgeRegion th s34) e34) (regionDistance (judgeRegion th s54) e54))

/-- The block's JUDGE_FN (44_signal_judge.md R107). -/
def applyJudge : JudgeFn → (s34 s54 mn mx : Int) → (hint : Bool) → SignalJudge
  | .judgeDefault, s34, s54, mn, mx, hint => judgeDefault s34 s54 mn mx hint
  | .free, s34, s54, mn, mx, hint => Config.openJudge s34 s54 mn mx hint

/-- A level as a response value (30_encoding.md R53, 44_signal_judge.md R105). -/
def levelValue (j : SignalJudge) : BitVec 32 := BitVec.ofNat 32 (levelNat j)

/-- JUDGE (44_signal_judge.md R106): ERR_NOCFG, ERR_RANGE (on the full sum `pos1 + T54`), ERR_UNINIT in that order;
`pos2` does not influence the result. -/
def execJudge (pos1 _pos2 : Nat) (hint : Bool) (s : State) : Result :=
  unlessHalted s <|
    match s.timing with
    | none => .next (raise .nocfg s)
    | some t =>
      if windowLength s ≤ pos1 + t.t54.toNat then .next (raise .range s)
      else
        match readRange s t pos1 with
        | .error e => .next (raise e s)
        | .ok cells =>
          match thresholds cells, sampleAt cells pos1 (pos1 + t.t34.toNat),
              sampleAt cells pos1 (pos1 + t.t54.toNat) with
          | some th, some s34, some s54 =>
            .next (respond (levelValue (applyJudge s.judgeFn s34 s54 th.mn th.mx hint)) s)
          | _, _, _ => .fault .timingOrder

/-- The worse of two levels, the numerically larger (44_signal_judge.md R110, R111). -/
def combineWorst (a b : SignalJudge) : SignalJudge := if levelNat a ≤ levelNat b then b else a

/-- WORST (44_signal_judge.md R110): configured or not. -/
def execWorst (a b : SignalJudge) (s : State) : Result :=
  unlessHalted s (.next (respond (levelValue (combineWorst a b)) s))

end Sys2Proof.Machine
end

