-- ==== Sys2Proof/Machine/Timing.lean ====
section
/-! DEFINITION. CONFIG, RDREG, SRST (40_timing_generator.md). -/

namespace Sys2Proof.Machine

open Sys2Proof

/-- The five registers CONFIG derives from its operands: plain integer divisions (40_timing_generator.md R70, R71). -/
def timingOf (sr lf : Nat) : Timing where
  sampleRate := BitVec.ofNat 24 sr
  lowFreq := BitVec.ofNat 32 lf
  t34 := BitVec.ofNat 32 (Config.n34 * sr / lf)
  t54 := BitVec.ofNat 32 (Config.n54 * sr / lf)
  t94 := BitVec.ofNat 32 (Config.n94 * sr / lf + Config.t94Bias)

/-- CONFIG (40_timing_generator.md R70): ERR_LOCKED before ERR_CFG; the registers are written all together. -/
def execConfig (sr lf : Nat) (s : State) : Result :=
  unlessHalted s <|
    if cfgValid s then .next (raise .locked s)
    else if sr = 0 ∨ lf = 0 then .next (raise .cfg s)
    else .next (respond 0 { s with timing := some (timingOf sr lf) })

/-- RDREG (40_timing_generator.md R73): register 0 also on a halted block (60_exceptions.md R124). -/
def execRdreg (reg : Nat) (s : State) : Result :=
  let perform : Result :=
    match registerValue s reg with
    | .ok v => .next (respond v s)
    | .error e => .next (raise e s)
  if reg = 0 then perform else unlessHalted s perform

/-- SRST (40_timing_generator.md R75): accepted in every state, halted or not. -/
def execSrst (s : State) : Result := .next (respond 0 (resetBlock s))

end Sys2Proof.Machine
end

