-- ==== Sys2Proof/Machine/WindowWrite.lean ====
section
/-! DEFINITION. WSAMP (41_window_write.md). -/

namespace Sys2Proof.Machine

open Sys2Proof

/-- WSAMP (41_window_write.md R80): ERR_RANGE before ERR_SAMPLE; configured or not. -/
def execWsamp (idx : Nat) (val : Int) (s : State) : Result :=
  unlessHalted s <|
    if windowLength s ≤ idx then .next (raise .range s)
    else if val < -Config.fullScale ∨ Config.fullScale < val then .next (raise .sample s)
    else .next (respond 0 (memWrite idx val s))

end Sys2Proof.Machine
end

