-- ==== Sys2Proof/Machine/Dispatch.lean ====
section
/-! DEFINITION. One arm per command. -/

namespace Sys2Proof.Machine

def exec (i : Instr) (s : State) : Host.Outcome State Fault Refusal :=
  match i with
  | .config sr lf => Sys2Proof.Machine.execConfig sr lf s
  | .rdreg reg => Sys2Proof.Machine.execRdreg reg s
  | .wsamp idx val => Sys2Proof.Machine.execWsamp idx val s
  | .nextb pos => Sys2Proof.Machine.execNextb pos s
  | .ishf pos1 pos2 => Sys2Proof.Machine.execIshf pos1 pos2 s
  | .judge pos1 pos2 hint => Sys2Proof.Machine.execJudge pos1 pos2 hint s
  | .worst a b => Sys2Proof.Machine.execWorst a b s
  | .srst => Sys2Proof.Machine.execSrst s

end Sys2Proof.Machine
end

