-- ==== Sys2Proof/Machine/Step.lean ====
section
/-! DEFINITION. One step: one command in, one response out, state updated (70_reset_and_hazards.md R141). -/

namespace Sys2Proof.Machine

open Sys2Proof

/-- Take the host's next command word, make the common checks (60_exceptions.md R122), perform the command. With no
word to take the block is idle and holds its state (60_exceptions.md R134, notes/assumptions/1.md). The halted check
stands in each meaning and in `illegalWord`, so that `exec` alone is already right on a halted block. -/
def step (s : State) : Host.Outcome State Fault Refusal :=
  match takeCommand s with
  | none => .next s
  | some (w, s') =>
    match decode w with
    | .ok i => exec i s'
    | .error _ => illegalWord s'

/-- The word, its bits above `nbits` zero, as the very next command the host sends. -/
def State.withFetchWord (s : State) (nbits w : Nat) : State :=
  offerCommand (BitVec.ofNat 64 (w % 2 ^ nbits)) s

end Sys2Proof.Machine
end

