-- ==== Sys2Proof/Safety.lean ====
section
/-! DEFINITION. The terms claims use: responses as numbers, what a cell holds, the declarative reading of NEXTB's scan, and
the invariants of the block. -/

namespace Sys2Proof.Machine

open Sys2Proof

/-! ### Responses -/

/-- The response word of code OK with a value (30_encoding.md R53). -/
def okResponse (v : Nat) : Word := BitVec.ofNat 64 v

/-- The response word of a code other than OK: the code in bits 63:60, all else 0 (30_encoding.md R53). -/
def codeResponse (code : Nat) : Word := BitVec.ofNat 64 (code * 2 ^ 60)

/-- Bits 63:60 of a response. -/
def responseCode (w : Word) : Nat := field w 60 4

/-- Bits 31:0 of a response. -/
def responseValue (w : Word) : Nat := field w 0 32

/-- A response the block can give: bits 59:32 zero, no code 8 to 14, value 0 on every code other than 0
(30_encoding.md R53, 60_exceptions.md R120). -/
def ResponseLegal (w : Word) : Prop :=
  field w 32 28 = 0 ∧ (responseCode w ≤ 7 ∨ responseCode w = 15) ∧
    (responseCode w ≠ 0 → responseValue w = 0)

/-! ### Cells and search ranges -/

/-- `WIN[i]` holds the value `c` (20_memory.md R32). -/
def CellHolds (s : State) (i : Nat) (c : Int) : Prop := ∃ v, Memory.read i s.win = some v ∧ v.toInt = c

/-- `WIN[i]` holds no value (10_state.md R27). -/
def CellEmpty (s : State) (i : Nat) : Prop := Memory.read i s.win = none

/-- The search range that starts at `pos` is `[pos, limit)` and not empty, its cells hold the values `cell`, and their
maximum and minimum are `mx` and `mn` (42_boundary_search.md R85, R86). -/
def RangeHolds (s : State) (t : Timing) (pos limit : Nat) (cell : Nat → Int) (mx mn : Int) : Prop :=
  limit = min (pos + t.t94.toNat) (2 * s.halfWindow) ∧ pos < limit ∧
    (∀ i, pos ≤ i → i < limit → CellHolds s i (cell i)) ∧
    (∃ i, pos ≤ i ∧ i < limit ∧ cell i = mx) ∧ (∃ i, pos ≤ i ∧ i < limit ∧ cell i = mn) ∧
    (∀ i, pos ≤ i → i < limit → cell i ≤ mx) ∧ (∀ i, pos ≤ i → i < limit → mn ≤ cell i)

/-- `p` is where a forward scan from `lo` stops: the first position that stops it, or the bound
(`lo` itself when it is already at or past the bound). -/
def ScanStops (stop : Nat → Prop) (lo limit p : Nat) : Prop :=
  lo ≤ p ∧ p ≤ max lo limit ∧ (∀ k, lo ≤ k → k < p → ¬ stop k) ∧ (p < limit → stop p)

/-- `r` is where a backward walk from `hi` stops: the greatest position above `lo` that does not pass, or `lo`
(`hi` itself when it is already at or below `lo`). -/
def WalkStops (pass : Nat → Prop) (lo hi r : Nat) : Prop :=
  r ≤ hi ∧ min lo hi ≤ r ∧ (∀ k, r < k → k ≤ hi → pass k) ∧ (lo < r → ¬ pass r)

/-- `r` is the boundary of a range with the values `cell`, scanned from `spos`, with extremes `mx` and `mn`
(42_boundary_search.md R88, R90, R91): a dip at or below `low`, then a rise at or above `high`, then back over every
sample at or above `avg`; at the horizon the last cell if it is above `avg`. -/
def IsBoundary (cell : Nat → Int) (spos limit : Nat) (mx mn : Int) (r : Nat) : Prop :=
  ∃ p1 p2, ScanStops (fun p => 8 * cell p ≤ 3 * mx + 5 * mn) spos limit p1 ∧
    ScanStops (fun p => 5 * mx + 3 * mn ≤ 8 * cell p) p1 limit p2 ∧
    (p2 < limit → WalkStops (fun p => mx + mn ≤ 2 * cell p) spos p2 r) ∧
    (limit ≤ p2 → mx + mn < 2 * cell (limit - 1) → r = limit - 1) ∧
    (limit ≤ p2 → 2 * cell (limit - 1) ≤ mx + mn →
      WalkStops (fun p => mx + mn ≤ 2 * cell p) spos (limit - 1) r)

/-- Region `r` of JUDGE_DEFAULT, as four disjoint intervals tested in order (44_signal_judge.md R108). -/
def RegionIs (mx mn c : Int) (r : Nat) : Prop :=
  (r = 0 ∧ 8 * c ≤ 3 * mx + 5 * mn) ∨
  (r = 1 ∧ 3 * mx + 5 * mn < 8 * c ∧ 2 * c < mx + mn) ∨
  (r = 2 ∧ 3 * mx + 5 * mn < 8 * c ∧ mx + mn ≤ 2 * c ∧ 8 * c < 5 * mx + 3 * mn) ∨
  (r = 3 ∧ 3 * mx + 5 * mn < 8 * c ∧ mx + mn ≤ 2 * c ∧ 5 * mx + 3 * mn ≤ 8 * c)

/-! ### Invariants -/

/-- `H` is legal (00_scope.md R6). -/
def HalfWindowLegal (s : State) : Prop := 1 ≤ s.halfWindow ∧ s.halfWindow ≤ 32768

/-- The window is in canonical form, holds cells 0 to L-1 only, and legal samples only (20_memory.md R30, R32). -/
def WindowLegal (s : State) : Prop :=
  Memory.wf s.win ∧ ∀ c ∈ s.win, c.1 < 2 * s.halfWindow ∧ -8388608 ≤ c.2.toInt ∧ c.2.toInt ≤ 8388608

/-- `T34 <= T54 < T94` (10_state.md R18). -/
def TimingOrdered (t : Timing) : Prop := t.t34.toNat ≤ t.t54.toNat ∧ t.t54.toNat < t.t94.toNat

/-- The timing registers, when they hold values, are the exact quotients of legal operands (10_state.md R13 to R17). -/
def TimingLegal (s : State) : Prop :=
  ∀ t, s.timing = some t →
    0 < t.sampleRate.toNat ∧ 0 < t.lowFreq.toNat ∧
    t.t34.toNat = 11 * t.sampleRate.toNat / t.lowFreq.toNat ∧
    t.t54.toNat = 21 * t.sampleRate.toNat / t.lowFreq.toNat ∧
    t.t94.toNat = 33 * t.sampleRate.toNat / t.lowFreq.toNat + 1

/-- Every response given is legal, and REG.RESP is the last of them, or 0 when there is none (10_state.md R21). -/
def AnswersLegal (s : State) : Prop :=
  (∀ w ∈ s.responses, ResponseLegal w) ∧ s.resp = s.responses.getLast?.getD 0

/-- The block runs exactly when no response so far carries a code other than OK (70_reset_and_hazards.md R166). -/
def CleanWhileRunning (s : State) : Prop := s.err = none ↔ ∀ w ∈ s.responses, responseCode w = 0

/-- The codes a command can answer, in any state (60_exceptions.md R133). -/
def codesOf : Instr → List Nat
  | .config _ _ => [0, 3, 4, 15]
  | .rdreg reg => if reg = 0 then [0] else if reg ≤ 5 then [0, 2, 15] else if reg = 6 then [0, 15] else [1, 15]
  | .wsamp _ _ => [0, 5, 7, 15]
  | .nextb _ => [0, 2, 5, 6, 15]
  | .ishf _ _ => [0, 2, 15]
  | .judge _ _ _ => [0, 2, 5, 6, 15]
  | .worst _ _ => [0, 15]
  | .srst => [0]

end Sys2Proof.Machine
end

