-- ==== Sys2Proof/Certificates/Slice0/Obligations.lean ====
section
/-! DEFINITION. The statements for the provers. -/

open Sys2Proof Sys2Proof.Machine

/-! ### Encoding -/

/-- R51, R52, R54, R55: decoding the word of a well-formed command gives it back, for all eight commands. -/
def Obligations.EncodedCommandDecodesBack : Prop :=
  ∀ i : Instr, i.wellFormed = true → decode (encode i) = .ok i

/-- R51, R52, R55: a word that decodes is the word of the well-formed command it decodes to: no bit is dropped. -/
def Obligations.DecodedWordIsItsCommandsWord : Prop :=
  ∀ (w : Word) (i : Instr), decode w = .ok i → i.wellFormed = true ∧ encode i = w

/-- R54: a word is the command of a row exactly when `(w AND mask) = match`; the operands are R51's fields. The rows are
disjoint, since the word then decodes to that command, and a word of no row is illegal. -/
def Obligations.WordIsCommandOfItsMatchingRow : Prop :=
  ∀ w : Word,
    (w &&& 0xFF00000000000000 = 0x1000000000000000 ↔
      decode w = .ok (.config (w.extractLsb' 32 24).toNat (w.extractLsb' 0 32).toNat)) ∧
    (w &&& 0xFFFFFFFFFFFFFFF0 = 0x2000000000000000 ↔
      decode w = .ok (.rdreg (w.extractLsb' 0 4).toNat)) ∧
    (w &&& 0xFFFF0000FE000000 = 0x3000000000000000 ↔
      decode w = .ok (.wsamp (w.extractLsb' 32 16).toNat (w.extractLsb' 0 25).toInt)) ∧
    (w &&& 0xFFFFFFFFFFFF0000 = 0x4000000000000000 ↔
      decode w = .ok (.nextb (w.extractLsb' 0 16).toNat)) ∧
    (w &&& 0xFFFFFFFF00000000 = 0x5000000000000000 ↔
      decode w = .ok (.ishf (w.extractLsb' 0 16).toNat (w.extractLsb' 16 16).toNat)) ∧
    (w &&& 0xFFFFFFFE00000000 = 0x6000000000000000 ↔
      decode w = .ok (.judge (w.extractLsb' 0 16).toNat (w.extractLsb' 16 16).toNat (w.getLsbD 32))) ∧
    (w &&& 0xFFFFFFFFFFFFFFF0 = 0x7000000000000000 ↔
      ∃ a b, levelNat a = (w.extractLsb' 0 2).toNat ∧ levelNat b = (w.extractLsb' 2 2).toNat ∧
        decode w = .ok (.worst a b)) ∧
    (w = 0x8000000000000000 ↔ decode w = .ok .srst) ∧
    (w &&& 0xFF00000000000000 ≠ 0x1000000000000000 → w &&& 0xFFFFFFFFFFFFFFF0 ≠ 0x2000000000000000 →
      w &&& 0xFFFF0000FE000000 ≠ 0x3000000000000000 → w &&& 0xFFFFFFFFFFFF0000 ≠ 0x4000000000000000 →
      w &&& 0xFFFFFFFF00000000 ≠ 0x5000000000000000 → w &&& 0xFFFFFFFE00000000 ≠ 0x6000000000000000 →
      w &&& 0xFFFFFFFFFFFFFFF0 ≠ 0x7000000000000000 → w ≠ 0x8000000000000000 → ∃ r, decode w = .error r)

/-- R56: a word is illegal exactly when its opcode is 0x0 or 0x9 to 0xF, or a must-be-zero bit of its opcode's format
(R51) is 1; the decoder names which. -/
def Obligations.IllegalWordsAreReservedOrMustBeZero : Prop :=
  ∀ w : Word,
    (decode w = .error .reservedOpcode ↔ field w 60 4 = 0 ∨ 9 ≤ field w 60 4) ∧
    (decode w = .error .mustBeZero ↔
      (field w 60 4 = 1 ∧ field w 56 4 ≠ 0) ∨ (field w 60 4 = 2 ∧ field w 4 56 ≠ 0) ∨
      (field w 60 4 = 3 ∧ (field w 48 12 ≠ 0 ∨ field w 25 7 ≠ 0)) ∨
      (field w 60 4 = 4 ∧ field w 16 44 ≠ 0) ∨ (field w 60 4 = 5 ∧ field w 32 28 ≠ 0) ∨
      (field w 60 4 = 6 ∧ field w 33 27 ≠ 0) ∨ (field w 60 4 = 7 ∧ field w 4 56 ≠ 0) ∨
      (field w 60 4 = 8 ∧ field w 0 60 ≠ 0))

/-- R59, column 'encodes as': the word of a well-formed command as a sum. -/
def Obligations.WordIsTheAssemblersSum : Prop :=
  (∀ sr lf, sr < 2 ^ 24 → lf < 2 ^ 32 →
    (encode (.config sr lf)).toNat = 0x1000000000000000 + sr * 2 ^ 32 + lf) ∧
  (∀ reg, reg < 2 ^ 4 → (encode (.rdreg reg)).toNat = 0x2000000000000000 + reg) ∧
  (∀ (idx : Nat) (val : Int), idx < 2 ^ 16 → -(2 ^ 24) ≤ val → val < 2 ^ 24 →
    ((encode (.wsamp idx val)).toNat : Int) = 0x3000000000000000 + (idx : Int) * 2 ^ 32 + val % 2 ^ 25) ∧
  (∀ pos, pos < 2 ^ 16 → (encode (.nextb pos)).toNat = 0x4000000000000000 + pos) ∧
  (∀ pos1 pos2, pos1 < 2 ^ 16 → pos2 < 2 ^ 16 →
    (encode (.ishf pos1 pos2)).toNat = 0x5000000000000000 + pos2 * 2 ^ 16 + pos1) ∧
  (∀ pos1 pos2 hint, pos1 < 2 ^ 16 → pos2 < 2 ^ 16 →
    (encode (.judge pos1 pos2 hint)).toNat =
      0x6000000000000000 + (if hint then 1 else 0) * 2 ^ 32 + pos2 * 2 ^ 16 + pos1) ∧
  (∀ a b, (encode (.worst a b)).toNat = 0x7000000000000000 + levelNat b * 4 + levelNat a) ∧
  (encode .srst).toNat = 0x8000000000000000

/-- R51, file 95 section 2: a few words of the spec's vectors, one of each family. -/
def Obligations.SampleWordsDecode : Prop :=
  decode 0x1000AC4400009600 = .ok (.config 44100 38400) ∧
  decode 0x300003FF01C00000 = .ok (.wsamp 1023 (-4194304)) ∧
  decode 0x4000000000000010 = .ok (.nextb 16) ∧
  decode 0x5000000000D700B3 = .ok (.ishf 179 215) ∧
  decode 0x6000000100230011 = .ok (.judge 17 35 true)

/-- R39: eight bytes of a byte-wide channel, bits 7:0 first, carry the word; what follows them is left. (The last clause, that
fewer than eight bytes are refused as truncated, is no rule of the spec: the model's choice, log entry 7.) -/
def Obligations.ByteChannelIsLittleEndian : Prop :=
  (∀ (w : Word) (k : Nat), k < 8 → (wordBytes w)[k]? = some (BitVec.ofNat 8 (w.toNat / 2 ^ (8 * k)))) ∧
  (∀ (w : Word) (i : Instr) (rest : List Byte), decode w = .ok i →
    decodeBytes (wordBytes w ++ rest) = .ok (i, rest)) ∧
  (∀ (w : Word) (r : Reject) (rest : List Byte), decode w = .error r →
    decodeBytes (wordBytes w ++ rest) = .error r) ∧
  (∀ bs : List Byte, bs.length < 8 → decodeBytes bs = .error .truncated)

/-! ### The step: common checks, errors, the halted state -/

/-- R141, R122: a step takes the next word; when it decodes to `i`, the step is `exec i` on the state in which the word
has been taken from the host's list. Nothing else stands around exec on this hardware. -/
def Obligations.StepRunsTheDecodedCommand : Prop :=
  ∀ (s : State) (w : Word) (rest : List Word) (i : Instr), s.commands = w :: rest → decode w = .ok i →
    step s = exec i { s with commands := rest }

/-- A word placed by withFetchWord is the command the very next step runs (the model's fetch, log entry 1). -/
def Obligations.PlacedWordIsTheNextCommand : Prop :=
  ∀ (s : State) (i : Instr), i.wellFormed = true → step (s.withFetchWord 64 (encode i).toNat) = exec i s

/-- R134: 'between commands the block holds its state and does nothing' (that a step with no word is this idleness is
the model's reading, log entry 1). -/
def Obligations.IdleBlockHoldsItsState : Prop :=
  ∀ s : State, s.commands = [] → step s = .next s

/-- R122: the common checks, in order, by the word itself: on a halted block SRST and RDREG 0 are compared as words, every
other word is answered ERR_HALTED; on a running block an illegal word raises ERR_ILLEGAL; else the command's rule. -/
def Obligations.CommonChecksInOrder : Prop :=
  ∀ (s : State) (w : Word) (rest : List Word), s.commands = w :: rest →
    (s.err ≠ none → w = 0x8000000000000000 →
      step s = .next { s with commands := rest, timing := none, err := none, win := [],
                              resp := okResponse 0, responses := s.responses ++ [okResponse 0] }) ∧
    (s.err ≠ none → w = 0x2000000000000000 →
      step s = .next { s with commands := rest, resp := okResponse (statusWord s).toNat,
                              responses := s.responses ++ [okResponse (statusWord s).toNat] }) ∧
    (s.err ≠ none → w ≠ 0x8000000000000000 → w ≠ 0x2000000000000000 →
      step s = .next { s with commands := rest, resp := codeResponse 15,
                              responses := s.responses ++ [codeResponse 15] }) ∧
    (s.err = none → (∀ i, decode w ≠ .ok i) →
      step s = .next { s with commands := rest, err := some .illegal, resp := codeResponse 1,
                              responses := s.responses ++ [codeResponse 1] }) ∧
    (s.err = none → ∀ i, decode w = .ok i → step s = exec i { s with commands := rest })

/-- R121: an error is raised only on a running block; it leaves STATUS.ERR with its code and REG.RESP with the code and
value 0, halts the block, and changes nothing else, whichever word raised it (the word is taken, and the answer joins the
host's list). -/
def Obligations.ErrorWritesStatusAndResponseOnly : Prop :=
  ∀ (s t : State) (w : Word) (rest : List Word), s.commands = w :: rest → step s = .next t →
    1 ≤ responseCode t.resp → responseCode t.resp ≤ 7 →
    s.err = none ∧ halted t = true ∧ ∃ e, (errorNumber e).toNat = responseCode t.resp ∧
      t = { s with commands := rest, err := some e, resp := codeResponse (responseCode t.resp),
                   responses := s.responses ++ [codeResponse (responseCode t.resp)] }

/-- R124, R126: until reset a halted block keeps the first error's code, its configuration and its window, over any number
of steps whose words are not SRST. -/
def Obligations.FirstErrorSticksUntilReset : Prop :=
  ∀ (k : Nat) (s t : State) (e : ErrorCode), s.err = some e →
    (∀ w ∈ s.commands.take k, w ≠ 0x8000000000000000) →
    Host.Core.run Sys2Proof.core k s = .next t →
    t.err = some e ∧ t.timing = s.timing ∧ t.win = s.win

/-- R75, R124: SRST is the only command that leaves the halted state. -/
def Obligations.OnlySrstLeavesTheHaltedState : Prop :=
  ∀ (i : Instr) (s t : State), s.err ≠ none → exec i s = .next t → t.err ≠ s.err → i = .srst ∧ t.err = none

/-- R123, R133: no command answers a code outside its row of the matrix, in any state. -/
def Obligations.CommandsAnswerOnlyTheirCodes : Prop :=
  ∀ (i : Instr) (s t : State), exec i s = .next t → responseCode t.resp ∈ codesOf i

/-- R21, R24, R141: every word is answered exactly once, and REG.RESP holds that answer (the host's lists are the model's,
log entry 1). -/
def Obligations.EveryWordIsAnsweredOnce : Prop :=
  ∀ (s t : State) (w : Word) (rest : List Word), s.commands = w :: rest → step s = .next t →
    t.commands = rest ∧ t.responses = s.responses ++ [t.resp]

/-! ### Reset and STATUS -/

/-- R27, R140: what reset leaves, by the RST input and by SRST. (That SRST's answer is the all-zero word is R140.) -/
def Obligations.ResetLeavesTheSpecValues : Prop :=
  (State.reset.timing = none ∧ cfgValid State.reset = false ∧ errField State.reset = 0 ∧ State.reset.resp = 0 ∧
    windowLength State.reset = 1024 ∧ ∀ i, CellEmpty State.reset i) ∧
  (∀ s : State, ((pulseRst s).timing = none ∧ cfgValid (pulseRst s) = false ∧ errField (pulseRst s) = 0 ∧
    (pulseRst s).resp = 0 ∧ windowLength (pulseRst s) = 2 * s.halfWindow ∧ ∀ i, CellEmpty (pulseRst s) i)) ∧
  (∀ s : State, exec .srst s = .next { pulseRst s with responses := s.responses ++ [0] })

/-- R75: SRST in every state, halted or not; a word 0x8... with any other bit set is not SRST. -/
def Obligations.SrstEndsTheSession : Prop :=
  (∀ s : State, ∃ t, exec .srst s = .next t ∧
    t = { s with timing := none, err := none, win := [], resp := okResponse 0,
                 responses := s.responses ++ [okResponse 0] } ∧ ∀ i, CellEmpty t i) ∧
  (∀ w : Word, decode w = .ok .srst → w = 0x8000000000000000) ∧
  (∀ w : Word, field w 60 4 = 8 → field w 0 60 ≠ 0 → decode w = .error .mustBeZero)

/-- R19: the STATUS word: CFG_VALID in bit 0, ERR in bits 7:4, bits 3:1 and 31:8 read as 0, ERR never above 7; halted
exactly when ERR is not 0. -/
def Obligations.StatusWordLayout : Prop :=
  ∀ s : State, ∃ e : Nat, e ≤ 7 ∧ (statusWord s).toNat = 16 * e + (if s.timing.isSome then 1 else 0) ∧
    (e = 0 ↔ s.err = none) ∧ (∀ c, s.err = some c → (errorNumber c).toNat = e) ∧ (halted s = true ↔ e ≠ 0)

/-! ### CONFIG and RDREG -/

/-- R70: CONFIG on a running block: ERR_LOCKED, then ERR_CFG, else the five registers, all together and exact. -/
def Obligations.ConfigDerivesTheTiming : Prop :=
  ∀ (s : State) (sr lf : Nat), s.err = none → sr < 2 ^ 24 → lf < 2 ^ 32 →
    (s.timing ≠ none → exec (.config sr lf) s = .next { s with
      err := some .locked, resp := codeResponse 3, responses := s.responses ++ [codeResponse 3] }) ∧
    (s.timing = none → (sr = 0 ∨ lf = 0) → exec (.config sr lf) s = .next { s with
      err := some .cfg, resp := codeResponse 4, responses := s.responses ++ [codeResponse 4] }) ∧
    (s.timing = none → sr ≠ 0 → lf ≠ 0 → ∃ r : Timing,
      exec (.config sr lf) s = .next { s with
        timing := some r, resp := okResponse 0, responses := s.responses ++ [okResponse 0] } ∧
      r.sampleRate.toNat = sr ∧ r.lowFreq.toNat = lf ∧ r.t34.toNat = 11 * sr / lf ∧
      r.t54.toNat = 21 * sr / lf ∧ r.t94.toNat = 33 * sr / lf + 1)

/-- R71: the values CONFIG writes are the source's real-number formulas, with `lowFrequency = lf/32` hertz, and those are
plain integer divisions. -/
def Obligations.TimingIsTheSourcesFormula : Prop :=
  ∀ (s : State) (sr lf : Nat), s.err = none → s.timing = none → 0 < sr → sr < 2 ^ 24 → 0 < lf → lf < 2 ^ 32 →
    ∃ (t : State) (r : Timing), exec (.config sr lf) s = .next t ∧ t.timing = some r ∧
      (r.t34.toNat : Int) = ⌊(sr : ℚ) / ((lf : ℚ) / 32) * (275 / 100) / 8⌋ ∧
      (r.t54.toNat : Int) = ⌊(sr : ℚ) / ((lf : ℚ) / 32) * (525 / 100) / 8⌋ ∧
      (r.t94.toNat : Int) = ⌊(sr : ℚ) / ((lf : ℚ) / 32) * (825 / 100) / 8⌋ + 1 ∧
      r.t34.toNat = 11 * sr / lf ∧ r.t54.toNat = 21 * sr / lf ∧ r.t94.toNat = 33 * sr / lf + 1

/-- R18: the order of the timing registers, and their immutability until reset. -/
def Obligations.TimingIsOrderedAndImmutable : Prop :=
  (∀ (s : State) (r : Timing), TimingLegal s → s.timing = some r → TimingOrdered r) ∧
  (∀ (s : State) (r : Timing) (sr lf : Nat), s.err = none → s.timing = some r →
    exec (.config sr lf) s = .next { s with
      err := some .locked, resp := codeResponse 3, responses := s.responses ++ [codeResponse 3] }) ∧
  (∀ (i : Instr) (s t : State) (r : Timing), s.timing = some r → exec i s = .next t → i ≠ .srst →
    t.timing = some r)

/-- R73: RDREG by register number on a running block. -/
def Obligations.RdregReadsTheRegisters : Prop :=
  ∀ s : State, s.err = none →
    (∃ v, exec (.rdreg 0) s = .next { s with resp := okResponse v, responses := s.responses ++ [okResponse v] } ∧
      v = if s.timing.isSome then 1 else 0) ∧
    (∀ r : Timing, s.timing = some r →
      (∀ reg v, (reg, v) ∈ [(1, r.sampleRate.toNat), (2, r.lowFreq.toNat), (3, r.t34.toNat),
          (4, r.t54.toNat), (5, r.t94.toNat)] →
        exec (.rdreg reg) s = .next { s with
          resp := okResponse v, responses := s.responses ++ [okResponse v] })) ∧
    (s.timing = none → ∀ reg, 1 ≤ reg → reg ≤ 5 → exec (.rdreg reg) s = .next { s with
      err := some .nocfg, resp := codeResponse 2, responses := s.responses ++ [codeResponse 2] }) ∧
    (s.halfWindow ≤ 32768 → exec (.rdreg 6) s = .next { s with
      resp := okResponse (2 * s.halfWindow), responses := s.responses ++ [okResponse (2 * s.halfWindow)] }) ∧
    (∀ reg, 7 ≤ reg → exec (.rdreg reg) s = .next { s with
      err := some .illegal, resp := codeResponse 1, responses := s.responses ++ [codeResponse 1] })

/-- R124: every command but SRST and RDREG 0 is refused on a halted block, and RDREG 0 answers STATUS. -/
def Obligations.HaltedBlockRefusesCommands : Prop :=
  ∀ s : State, s.err ≠ none →
    (∀ i : Instr, i ≠ .srst → i ≠ .rdreg 0 → exec i s = .next { s with
      resp := codeResponse 15, responses := s.responses ++ [codeResponse 15] }) ∧
    (∀ e, s.err = some e → ∃ v, exec (.rdreg 0) s = .next { s with
        resp := okResponse v, responses := s.responses ++ [okResponse v] } ∧
      v = 16 * (errorNumber e).toNat + (if s.timing.isSome then 1 else 0))

/-! ### The window -/

/-- R36: MemRead answers what the cell holds, or ERR_UNINIT. -/
def Obligations.MemReadAnswersTheCell : Prop :=
  ∀ (s : State) (i : Nat),
    (∀ c, CellHolds s i c → memRead s i = .ok c) ∧ (CellEmpty s i → memRead s i = .error .uninit)

/-- R37, R43: after MemWrite the cell holds the value, whether or not it held one before, and no other cell changes. -/
def Obligations.MemWriteChangesOneCell : Prop :=
  ∀ (s : State) (i : Nat) (v : Int), -8388608 ≤ v → v ≤ 8388608 →
    CellHolds (memWrite i v s) i v ∧ memRead (memWrite i v s) i = .ok v ∧
    (∀ k, k ≠ i → Memory.read k (memWrite i v s).win = Memory.read k s.win) ∧
    memWrite i v s = { s with win := (memWrite i v s).win }

/-- R80: WSAMP on a running block: ERR_RANGE, then ERR_SAMPLE, else the one cell. -/
def Obligations.WsampWritesOneCell : Prop :=
  ∀ (s : State) (idx : Nat) (val : Int), s.err = none →
    (2 * s.halfWindow ≤ idx → exec (.wsamp idx val) s = .next { s with
      err := some .range, resp := codeResponse 5, responses := s.responses ++ [codeResponse 5] }) ∧
    (idx < 2 * s.halfWindow → (val < -8388608 ∨ 8388608 < val) → exec (.wsamp idx val) s = .next { s with
      err := some .sample, resp := codeResponse 7, responses := s.responses ++ [codeResponse 7] }) ∧
    (idx < 2 * s.halfWindow → -8388608 ≤ val → val ≤ 8388608 → ∃ t, exec (.wsamp idx val) s = .next t ∧
      t = { s with win := t.win, resp := okResponse 0, responses := s.responses ++ [okResponse 0] } ∧
      CellHolds t idx val ∧ ∀ a, a ≠ idx → Memory.read a t.win = Memory.read a s.win)

/-! ### NEXTB -/

/-- R88: the errors of NEXTB, in order; ERR_UNINIT exactly for a footprint (R38) with a cell without a value. -/
def Obligations.NextbErrorsInOrder : Prop :=
  ∀ (s : State) (pos : Nat), s.err = none →
    (s.timing = none → exec (.nextb pos) s = .next { s with
      err := some .nocfg, resp := codeResponse 2, responses := s.responses ++ [codeResponse 2] }) ∧
    (s.timing ≠ none → 2 * s.halfWindow ≤ pos → exec (.nextb pos) s = .next { s with
      err := some .range, resp := codeResponse 5, responses := s.responses ++ [codeResponse 5] }) ∧
    (∀ r : Timing, s.timing = some r → pos < 2 * s.halfWindow →
      (∃ i, pos ≤ i ∧ i < min (pos + r.t94.toNat) (2 * s.halfWindow) ∧ CellEmpty s i) →
      exec (.nextb pos) s = .next { s with
        err := some .uninit, resp := codeResponse 6, responses := s.responses ++ [codeResponse 6] })

/-- R88, R90, R91: on a full range NEXTB completes and answers the boundary its scan defines, inside the range. -/
def Obligations.NextbAnswersTheBoundary : Prop :=
  ∀ (s : State) (r : Timing) (pos limit : Nat) (cell : Nat → Int) (mx mn : Int),
    s.err = none → s.timing = some r → s.halfWindow ≤ 32768 → RangeHolds s r pos limit cell mx mn →
    ∃ b, exec (.nextb pos) s = .next { s with resp := okResponse b, responses := s.responses ++ [okResponse b] } ∧
      IsBoundary cell (pos + r.t34.toNat) limit mx mn b ∧ pos ≤ b ∧ b ≤ limit - 1 ∧ limit ≤ 2 * s.halfWindow

/-- R89, R95: in a range that is not flat, when a dip and then a rise are found inside it, the boundary is an upward
midline crossing: below `avg`, every cell from the next to the rise at or above `avg`, and not before the dip. -/
def Obligations.BoundaryIsAnUpwardCrossing : Prop :=
  ∀ (s : State) (r : Timing) (pos limit : Nat) (cell : Nat → Int) (mx mn : Int) (p1 p2 : Nat),
    s.err = none → s.timing = some r → s.halfWindow ≤ 32768 → RangeHolds s r pos limit cell mx mn → mn < mx →
    ScanStops (fun p => 8 * cell p ≤ 3 * mx + 5 * mn) (pos + r.t34.toNat) limit p1 →
    ScanStops (fun p => 5 * mx + 3 * mn ≤ 8 * cell p) p1 limit p2 → p2 < limit →
    ∃ b, exec (.nextb pos) s = .next { s with resp := okResponse b, responses := s.responses ++ [okResponse b] } ∧
      p1 ≤ b ∧ b < p2 ∧ 2 * cell b < mx + mn ∧ (∀ k, b < k → k ≤ p2 → mx + mn ≤ 2 * cell k)

/-- R90: the exhausted scan: no dip from `spos` on, or no rise after the dip, or `spos` at or past the horizon. The answer
is `limit - 1` when the last cell of the range is above `avg`, and else where the walk from `limit - 1` stops, which is
`limit - 1` again unless that cell equals `avg`. -/
def Obligations.ExhaustedScanAnswersTheHorizon : Prop :=
  ∀ (s : State) (r : Timing) (pos limit : Nat) (cell : Nat → Int) (mx mn : Int) (p1 : Nat),
    s.err = none → s.timing = some r → s.halfWindow ≤ 32768 → RangeHolds s r pos limit cell mx mn →
    ScanStops (fun p => 8 * cell p ≤ 3 * mx + 5 * mn) (pos + r.t34.toNat) limit p1 →
    (∀ k, p1 ≤ k → k < limit → 8 * cell k < 5 * mx + 3 * mn) →
    ∃ b, exec (.nextb pos) s = .next { s with resp := okResponse b, responses := s.responses ++ [okResponse b] } ∧
      (mx + mn < 2 * cell (limit - 1) → b = limit - 1) ∧
      (2 * cell (limit - 1) ≤ mx + mn →
        WalkStops (fun p => mx + mn ≤ 2 * cell p) (pos + r.t34.toNat) (limit - 1) b) ∧
      (2 * cell (limit - 1) ≠ mx + mn → b = limit - 1)

/-- R92: in a flat range the result is `spos = startPos + T34` when that lies in the range, else `limit - 1` (R93). -/
def Obligations.FlatRangeAnswersItsStartOffset : Prop :=
  ∀ (s : State) (r : Timing) (pos limit : Nat) (m : Int),
    s.err = none → s.timing = some r → s.halfWindow ≤ 32768 → RangeHolds s r pos limit (fun _ => m) m m →
    (pos + r.t34.toNat < limit →
      exec (.nextb pos) s = .next { s with resp := okResponse (pos + r.t34.toNat),
                                           responses := s.responses ++ [okResponse (pos + r.t34.toNat)] }) ∧
    (limit ≤ pos + r.t34.toNat →
      exec (.nextb pos) s = .next { s with resp := okResponse (limit - 1),
                                           responses := s.responses ++ [okResponse (limit - 1)] })

/-- R93: in a short range (`spos >= limit`) the result is `limit - 1 = L - 1`, whatever the cells hold; NEXTB L-1 answers
L-1. -/
def Obligations.ShortRangeAnswersTheLastCell : Prop :=
  ∀ (s : State) (r : Timing) (pos limit : Nat) (cell : Nat → Int) (mx mn : Int),
    s.err = none → s.timing = some r → s.halfWindow ≤ 32768 → TimingOrdered r →
    RangeHolds s r pos limit cell mx mn →
    (limit ≤ pos + r.t34.toNat → limit = 2 * s.halfWindow ∧ 2 * s.halfWindow ≤ pos + r.t34.toNat ∧
      exec (.nextb pos) s = .next { s with resp := okResponse (limit - 1),
                                           responses := s.responses ++ [okResponse (limit - 1)] }) ∧
    (pos + 1 = 2 * s.halfWindow →
      exec (.nextb pos) s = .next { s with resp := okResponse pos, responses := s.responses ++ [okResponse pos] })

/-- R87: the order of the thresholds of any range, their equal distances from `avg`, strict when the range is not flat and
equal when it is; an offset added to every sample and a positive gain act on the thresholds as on the samples. -/
def Obligations.ThresholdsAreOrdered : Prop :=
  ∀ (cells : List Int) (th : Thresholds), thresholds cells = some th →
    th.high8 - 4 * th.avg2 = th.mx - th.mn ∧ 4 * th.avg2 - th.low8 = th.mx - th.mn ∧
    8 * th.mn ≤ th.low8 ∧ th.low8 ≤ 4 * th.avg2 ∧ 4 * th.avg2 ≤ th.high8 ∧ th.high8 ≤ 8 * th.mx ∧
    (th.mn < th.mx → 8 * th.mn < th.low8 ∧ th.low8 < 4 * th.avg2 ∧ 4 * th.avg2 < th.high8 ∧
      th.high8 < 8 * th.mx) ∧
    (th.mx = th.mn → th.low8 = 8 * th.mx ∧ 4 * th.avg2 = 8 * th.mx ∧ th.high8 = 8 * th.mx) ∧
    (∀ c ∈ cells, th.mn ≤ c ∧ c ≤ th.mx) ∧ th.mn ∈ cells ∧ th.mx ∈ cells ∧
    (∀ gain offset : Int, 0 < gain → thresholds (cells.map (fun c => gain * c + offset)) = some
      { mx := gain * th.mx + offset, mn := gain * th.mn + offset, avg2 := gain * th.avg2 + 2 * offset,
        high8 := gain * th.high8 + 8 * offset, low8 := gain * th.low8 + 8 * offset })

/-- R87: so a DC offset or a positive gain inside the range does not change where the boundary lies. -/
def Obligations.BoundaryIgnoresOffsetAndGain : Prop :=
  ∀ (cells : List Int) (th th' : Thresholds) (gain offset : Int) (start limit t34 : Nat), 0 < gain →
    thresholds cells = some th → thresholds (cells.map (fun c => gain * c + offset)) = some th' →
    nextBoundary (cells.map (fun c => gain * c + offset)) th' start limit t34 =
      nextBoundary cells th start limit t34

/-- R38: NEXTB and JUDGE read no cell outside the footprint: what other cells hold does not change the answer. -/
def Obligations.SearchReadsOnlyItsFootprint : Prop :=
  ∀ (s t : State) (r : Timing) (win : Memory) (pos pos2 : Nat) (hint : Bool), s.timing = some r →
    (∀ i, pos ≤ i → i < min (pos + r.t94.toNat) (2 * s.halfWindow) → Memory.read i win = Memory.read i s.win) →
    (exec (.nextb pos) s = .next t → exec (.nextb pos) { s with win := win } = .next { t with win := win }) ∧
    (exec (.judge pos pos2 hint) s = .next t →
      exec (.judge pos pos2 hint) { s with win := win } = .next { t with win := win })

/-- R38: CONFIG, RDREG, ISHF, WORST and SRST read no cell. -/
def Obligations.OtherCommandsReadNoCell : Prop :=
  ∀ (i : Instr) (s t : State) (win : Memory), (∀ idx val, i ≠ .wsamp idx val) → (∀ pos, i ≠ .nextb pos) →
    (∀ p q h, i ≠ .judge p q h) → exec i s = .next t →
    exec i { s with win := win } = .next { t with win := if i = .srst then [] else win }

/-! ### ISHF -/

/-- R100: ISHF on a running block: ERR_NOCFG, else 1 exactly when the signed difference is at most T54. -/
def Obligations.IshfComparesWithT54 : Prop :=
  ∀ (s : State) (pos1 pos2 : Nat), s.err = none →
    (s.timing = none → exec (.ishf pos1 pos2) s = .next { s with
      err := some .nocfg, resp := codeResponse 2, responses := s.responses ++ [codeResponse 2] }) ∧
    (∀ r : Timing, s.timing = some r →
      ((pos2 : Int) - pos1 ≤ r.t54.toNat → exec (.ishf pos1 pos2) s = .next { s with
        resp := okResponse 1, responses := s.responses ++ [okResponse 1] }) ∧
      ((r.t54.toNat : Int) < pos2 - pos1 → exec (.ishf pos1 pos2) s = .next { s with
        resp := okResponse 0, responses := s.responses ++ [okResponse 0] }))

/-- R101: for a fixed configuration there is exactly one threshold, T54: on 16-bit positions a number `k` separates the
answers 1 (differences up to `k`) from the answers 0 (greater ones) exactly when it is T54; when T54 is at least 65535
every pair answers 1, and every `k` of at least 65535 separates them as well. -/
def Obligations.IshfHasExactlyOneThreshold : Prop :=
  ∀ (s : State) (r : Timing) (k : Nat), s.err = none → s.timing = some r →
    ((∀ pos1 pos2 : Nat, pos1 < 2 ^ 16 → pos2 < 2 ^ 16 → ∃ t, exec (.ishf pos1 pos2) s = .next t ∧
        t.resp = if (pos2 : Int) - pos1 ≤ k then okResponse 1 else okResponse 0) ↔
      (k = r.t54.toNat ∨ (65535 ≤ k ∧ 65535 ≤ r.t54.toNat)))

/-! ### JUDGE and WORST -/

/-- R106: the errors of JUDGE, in order; the full sum `pos1 + T54` is compared with L. -/
def Obligations.JudgeErrorsInOrder : Prop :=
  ∀ (s : State) (pos1 pos2 : Nat) (hint : Bool), s.err = none →
    (s.timing = none → exec (.judge pos1 pos2 hint) s = .next { s with
      err := some .nocfg, resp := codeResponse 2, responses := s.responses ++ [codeResponse 2] }) ∧
    (∀ r : Timing, s.timing = some r → 2 * s.halfWindow ≤ pos1 + r.t54.toNat →
      exec (.judge pos1 pos2 hint) s = .next { s with
        err := some .range, resp := codeResponse 5, responses := s.responses ++ [codeResponse 5] }) ∧
    (∀ r : Timing, s.timing = some r → pos1 + r.t54.toNat < 2 * s.halfWindow →
      (∃ i, pos1 ≤ i ∧ i < min (pos1 + r.t94.toNat) (2 * s.halfWindow) ∧ CellEmpty s i) →
      exec (.judge pos1 pos2 hint) s = .next { s with
        err := some .uninit, resp := codeResponse 6, responses := s.responses ++ [codeResponse 6] })

/-- R106, R107: on a full range JUDGE completes and answers JUDGE_FN of the two sampled cells, the extremes and the hint,
whichever `pos2`; with the free JUDGE_FN that is the opaque `Config.openJudge`, so the statement holds for every one. -/
def Obligations.JudgeAnswersItsFunction : Prop :=
  ∀ (s : State) (r : Timing) (pos1 pos2 limit : Nat) (hint : Bool) (cell : Nat → Int) (mx mn : Int),
    s.err = none → s.timing = some r → TimingOrdered r → pos1 + r.t54.toNat < 2 * s.halfWindow →
    RangeHolds s r pos1 limit cell mx mn →
    ∃ j : SignalJudge, exec (.judge pos1 pos2 hint) s = .next { s with
        resp := okResponse (levelNat j), responses := s.responses ++ [okResponse (levelNat j)] } ∧
      (s.judgeFn = .free →
        j = Config.openJudge (cell (pos1 + r.t34.toNat)) (cell (pos1 + r.t54.toNat)) mn mx hint) ∧
      (s.judgeFn = .judgeDefault →
        j = judgeDefault (cell (pos1 + r.t34.toNat)) (cell (pos1 + r.t54.toNat)) mn mx hint)

/-- R108: JUDGE_DEFAULT is the larger distance of the two regions from the pattern expected for the hint. -/
def Obligations.JudgeDefaultIsTheWorseDistance : Prop :=
  ∀ (s34 s54 mn mx : Int) (hint : Bool) (r34 r54 : Nat), RegionIs mx mn s34 r34 → RegionIs mx mn s54 r54 →
    (levelNat (judgeDefault s34 s54 mn mx hint) : Int) =
      max |(r34 : Int) - (if hint then 0 else 3)| |(r54 : Int) - (if hint then 3 else 0)|

/-- R109: nothing but an answer of JUDGE depends on JUDGE_FN. -/
def Obligations.NothingDependsOnTheJudgeFunction : Prop :=
  ∀ (i : Instr) (s t : State) (j : JudgeFn), exec i s = .next t →
    ∃ u, exec i { s with judgeFn := j } = .next u ∧
      u = { t with judgeFn := j, resp := u.resp, responses := u.responses } ∧
      ((∀ p q h, i ≠ .judge p q h) → u.resp = t.resp ∧ u.responses = t.responses)

/-- R110: WORST answers the numerically larger level, configured or not; it is commutative and associative, and A is its
identity. -/
def Obligations.WorstAnswersTheLargerLevel : Prop :=
  (∀ (s : State) (a b : SignalJudge), s.err = none →
    exec (.worst a b) s = .next { s with
      resp := okResponse (max (levelNat a) (levelNat b)),
      responses := s.responses ++ [okResponse (max (levelNat a) (levelNat b))] }) ∧
  (∀ a b, combineWorst a b = combineWorst b a) ∧
  (∀ a b c, combineWorst (combineWorst a b) c = combineWorst a (combineWorst b c)) ∧
  (∀ a, combineWorst .A a = a ∧ combineWorst a .A = a ∧ combineWorst a a = a)

/-! ### Frames and whole-machine rules -/

/-- R7, R10, R19, R22: what any command leaves unchanged of registers, flags and parameters: the timing registers but for
CONFIG and SRST, STATUS.ERR but for an error on a running block and SRST. (The two clauses on the host's lists, the words to
come unchanged and one answer appended, are the model's choice, log entry 1.) -/
def Obligations.RegisterFrameOfEveryCommand : Prop :=
  ∀ (i : Instr) (s t : State), exec i s = .next t →
    t.halfWindow = s.halfWindow ∧ t.judgeFn = s.judgeFn ∧ t.commands = s.commands ∧
    t.responses = s.responses ++ [t.resp] ∧
    (i ≠ .srst → (∀ sr lf, i ≠ .config sr lf) → t.timing = s.timing) ∧
    (i ≠ .srst → responseCode t.resp ≠ 0 → t.timing = s.timing) ∧
    (i ≠ .srst → (responseCode t.resp = 0 ∨ responseCode t.resp = 15) → t.err = s.err)

/-- File 93 section 4: a cell changes only by WSAMP to that cell, answered OK, and by reset. -/
def Obligations.WindowFrameOfEveryCommand : Prop :=
  ∀ (i : Instr) (s t : State), exec i s = .next t → i ≠ .srst →
    (∀ a, (∀ val, i ≠ .wsamp a val) → Memory.read a t.win = Memory.read a s.win) ∧
    (responseCode t.resp ≠ 0 → t.win = s.win) ∧ ((∀ idx val, i ≠ .wsamp idx val) → t.win = s.win)

/-- R115, R21: the answer and the next state depend on the state of the block and the word only: not on REG.RESP, nor on
what the host has been given or has yet to send. -/
def Obligations.AnswerIgnoresTheLatchAndTheHost : Prop :=
  ∀ (i : Instr) (s t : State) (w : Word) (cmds resps : List Word), exec i s = .next t →
    exec i { s with resp := w, commands := cmds, responses := resps } =
      .next { t with commands := cmds, responses := resps ++ [t.resp] }

/-- R17, R18, R85, R106: no command is refused, and only NEXTB and JUDGE can fault, in a state whose timing registers are out
of the order every CONFIG gives them (the model's own fault, log entry 8). -/
def Obligations.CommandsStopOnlyOnUnorderedTiming : Prop :=
  ∀ (i : Instr) (s : State), (∀ q : Refusal, exec i s ≠ .refused q) ∧
    (∀ f : Fault, exec i s = .fault f →
      ((∃ pos, i = .nextb pos) ∨ ∃ pos1 pos2 hint, i = .judge pos1 pos2 hint) ∧
      ∃ r : Timing, s.timing = some r ∧ ¬ TimingOrdered r)

/-! ### Invariants -/

/-- The reset state meets every invariant below. -/
def Obligations.ResetMeetsTheInvariants : Prop :=
  HalfWindowLegal State.reset ∧ WindowLegal State.reset ∧ TimingLegal State.reset ∧ AnswersLegal State.reset ∧
    CleanWhileRunning State.reset

/-- R30, R32: every step keeps the window in canonical form, with cells 0 to L-1 and legal samples only. -/
def Obligations.EveryStepKeepsTheWindowLegal : Prop :=
  ∀ s t : State, WindowLegal s → step s = .next t → WindowLegal t

/-- R13 to R17: every step keeps the timing registers the exact quotients of legal operands. -/
def Obligations.EveryStepKeepsTheTimingExact : Prop :=
  ∀ s t : State, TimingLegal s → step s = .next t → TimingLegal t

/-- R21, R53, R120: every step keeps the answers legal and REG.RESP the last of them (the list of answers is
the model's, log entry 1). -/
def Obligations.EveryStepKeepsTheAnswersLegal : Prop :=
  ∀ s t : State, AnswersLegal s → step s = .next t → AnswersLegal t

/-- R166: while no SRST is sent, the block runs exactly as long as every response is OK (with SRST in a run the rule's
equivalence fails, log entry 10). -/
def Obligations.RunIsCleanWhileNotHalted : Prop :=
  ∀ s t : State, CleanWhileRunning s → (∀ rest, s.commands ≠ 0x8000000000000000 :: rest) →
    step s = .next t → CleanWhileRunning t

/-- R166, R168: from a state with exact timing registers every run completes: no number of steps ends in a fault or a
refusal, and after as many steps as the host has words none is left unanswered (the host's lists are the model's, log
entry 1). -/
def Obligations.EveryRunIsAnsweredToTheEnd : Prop :=
  ∀ s : State, TimingLegal s →
    (∀ k, ∃ t, Host.Core.run Sys2Proof.core k s = .next t) ∧
    ∃ t, Host.Core.run Sys2Proof.core s.commands.length s = .next t ∧ t.commands = [] ∧
      t.responses.length = s.responses.length + s.commands.length
end

