-- ==== Sys2Proof/Laws/Encoding.lean ====
section
/-! SUPPORT. Words: concatenation under a mask, and where a field of a concatenation lies. -/

namespace Sys2Proof

/-- A mask written piece by piece acts piece by piece. -/
theorem append_and_append {n m : Nat} (a c : BitVec n) (b d : BitVec m) :
    (a ++ b) &&& (c ++ d) = (a &&& c) ++ (b &&& d) := by
  ext i hi
  simp only [BitVec.getElem_and, BitVec.getElem_append]
  split <;> simp

/-- The masks of the opcode map, written in the pieces of 30_encoding.md R51. -/
theorem opcodeMask_config : opcodeMask .config = BitVec.allOnes 4 ++ BitVec.allOnes 4 ++ 0#24 ++ 0#32 := by decide
theorem opcodeMask_rdreg : opcodeMask .rdreg = BitVec.allOnes 4 ++ BitVec.allOnes 56 ++ 0#4 := by decide
theorem opcodeMask_wsamp :
    opcodeMask .wsamp = BitVec.allOnes 4 ++ BitVec.allOnes 12 ++ 0#16 ++ BitVec.allOnes 7 ++ 0#25 := by decide
theorem opcodeMask_nextb : opcodeMask .nextb = BitVec.allOnes 4 ++ BitVec.allOnes 44 ++ 0#16 := by decide
theorem opcodeMask_ishf : opcodeMask .ishf = BitVec.allOnes 4 ++ BitVec.allOnes 28 ++ 0#16 ++ 0#16 := by decide
theorem opcodeMask_judge :
    opcodeMask .judge = BitVec.allOnes 4 ++ BitVec.allOnes 27 ++ 0#1 ++ 0#16 ++ 0#16 := by decide
theorem opcodeMask_worst : opcodeMask .worst = BitVec.allOnes 4 ++ BitVec.allOnes 56 ++ 0#2 ++ 0#2 := by decide

theorem matchesRow_of_and_eq {w : Word} {o : Opcode} (h : w &&& opcodeMask o = opcodeMatch o) :
    matchesRow w o = true := by
  simp [matchesRow, h]

/-- At most one row matches a word: the rows are disjoint (30_encoding.md R54), since the opcode bits differ. -/
theorem matchesRow_opcode {w : Word} {o : Opcode} (h : matchesRow w o = true) :
    w &&& 0xF000000000000000 = opcodeMatch o := by
  have h' : w &&& opcodeMask o = opcodeMatch o := by simpa [matchesRow] using h
  have hm : opcodeMask o &&& 0xF000000000000000 = 0xF000000000000000 := by cases o <;> decide
  have hv : opcodeMatch o &&& 0xF000000000000000 = opcodeMatch o := by cases o <;> decide
  rw [← hv, ← h', BitVec.and_assoc, hm]

theorem matchesRow_unique {w : Word} {o o' : Opcode} (h : matchesRow w o = true)
    (h' : matchesRow w o' = true) : o = o' := by
  have := (matchesRow_opcode h).symm.trans (matchesRow_opcode h')
  revert this
  cases o <;> cases o' <;> decide

/-- A word of a row decodes to that row's operands. -/
theorem decode_of_matchesRow {w : Word} {o : Opcode} (h : matchesRow w o = true) :
    decode w = .ok (operands w o) := by
  unfold decode
  cases hf : opcodes.find? (matchesRow w) with
  | none =>
    have := List.find?_eq_none.mp hf o (by cases o <;> decide)
    exact absurd h this
  | some o' => rw [matchesRow_unique h (List.find?_some hf)]

/-- A word that decodes is a word of one row. -/
theorem decode_eq_ok {w : Word} {i : Instr} (h : decode w = .ok i) :
    ∃ o, matchesRow w o = true ∧ i = operands w o := by
  unfold decode at h
  cases hf : opcodes.find? (matchesRow w) with
  | none => rw [hf] at h; cases h
  | some o =>
    rw [hf] at h
    exact ⟨o, List.find?_some hf, (Except.ok.inj h).symm⟩

/-- A word that does not decode is a word of no row. -/
theorem decode_eq_error {w : Word} {r : Reject} (h : decode w = .error r) :
    (∀ o, matchesRow w o = false) ∧ r = rejectReason w := by
  constructor
  · intro o
    cases ho : matchesRow w o with
    | false => rfl
    | true => rw [decode_of_matchesRow ho] at h; cases h
  · unfold decode at h
    cases hf : opcodes.find? (matchesRow w) with
    | none => rw [hf] at h; exact (Except.error.inj h).symm
    | some o => rw [hf] at h; cases h

/-- The unsigned fields of a word fit their widths. -/
theorem field_lt (w : Word) (lo len : Nat) : field w lo len < 2 ^ len := BitVec.isLt _

/-- The operands of a decoded word are in the ranges of 30_encoding.md R52. -/
theorem operands_wellFormed (w : Word) (o : Opcode) : (operands w o).wellFormed = true := by
  have hv : -(2 ^ 24) ≤ valField w ∧ valField w < 2 ^ 24 :=
    ⟨BitVec.le_toInt _, BitVec.toInt_lt⟩
  have hf := field_lt w
  cases o <;>
    simp [operands, Instr.wellFormed, fitsUnsigned, fitsVal] <;>
    first
      | exact hf _ _
      | exact ⟨hf _ _, hf _ _⟩
      | exact ⟨hf _ _, hv⟩

theorem decode_wellFormed {w : Word} {i : Instr} (h : decode w = .ok i) : i.wellFormed = true := by
  obtain ⟨o, -, rfl⟩ := decode_eq_ok h
  exact operands_wellFormed w o

theorem levelOfNat_levelNat (j : SignalJudge) : levelOfNat (levelNat j) = j := by
  cases j <;> rfl

theorem levelNat_lt (j : SignalJudge) : levelNat j < 4 := by cases j <;> decide

/-! ### Each row as the opcode and the must-be-zero fields of its format (30_encoding.md R51) -/

theorem toNat_append_eq {n m : Nat} (a : BitVec n) (b : BitVec m) :
    (a ++ b).toNat = a.toNat * 2 ^ m + b.toNat := by
  rw [BitVec.toNat_append, ← Nat.shiftLeft_add_eq_or_of_lt b.isLt, Nat.shiftLeft_eq]

theorem field_eq (w : Word) (lo len : Nat) : field w lo len = w.toNat / 2 ^ lo % 2 ^ len := by
  simp [field, Nat.shiftRight_eq_div_pow]

theorem matchesRow_config (w : Word) :
    matchesRow w .config = true ↔ field w 60 4 = 1 ∧ field w 56 4 = 0 := by
  have hw : w = w.extractLsb' 60 4 ++ w.extractLsb' 56 4 ++ w.extractLsb' 32 24 ++ w.extractLsb' 0 32 := by
    apply BitVec.eq_of_toNat_eq
    have := w.isLt
    rw [toNat_append_eq, toNat_append_eq, toNat_append_eq]
    simp only [BitVec.extractLsb'_toNat, Nat.shiftRight_eq_div_pow]
    omega
  have hm : w &&& opcodeMask .config = w.extractLsb' 60 4 ++ w.extractLsb' 56 4 ++ 0#24 ++ 0#32 := by
    conv_lhs => rw [hw]
    rw [opcodeMask_config, append_and_append, append_and_append, append_and_append]
    rw [BitVec.and_allOnes, BitVec.and_allOnes, BitVec.and_zero, BitVec.and_zero]
  have ho : (opcodeMatch .config).toNat = 1 * 2 ^ 60 := rfl
  rw [matchesRow, beq_iff_eq, hm, ← BitVec.toNat_inj, ho]
  rw [toNat_append_eq, toNat_append_eq, toNat_append_eq]
  simp only [field, BitVec.toNat_ofNat]
  have h0 := (w.extractLsb' 60 4).isLt
  have h1 := (w.extractLsb' 56 4).isLt
  omega

theorem matchesRow_rdreg (w : Word) :
    matchesRow w .rdreg = true ↔ field w 60 4 = 2 ∧ field w 4 56 = 0 := by
  have hw : w = w.extractLsb' 60 4 ++ w.extractLsb' 4 56 ++ w.extractLsb' 0 4 := by
    apply BitVec.eq_of_toNat_eq
    have := w.isLt
    rw [toNat_append_eq, toNat_append_eq]
    simp only [BitVec.extractLsb'_toNat, Nat.shiftRight_eq_div_pow]
    omega
  have hm : w &&& opcodeMask .rdreg = w.extractLsb' 60 4 ++ w.extractLsb' 4 56 ++ 0#4 := by
    conv_lhs => rw [hw]
    rw [opcodeMask_rdreg, append_and_append, append_and_append]
    rw [BitVec.and_allOnes, BitVec.and_allOnes, BitVec.and_zero]
  have ho : (opcodeMatch .rdreg).toNat = 2 * 2 ^ 60 := rfl
  rw [matchesRow, beq_iff_eq, hm, ← BitVec.toNat_inj, ho]
  rw [toNat_append_eq, toNat_append_eq]
  simp only [field, BitVec.toNat_ofNat]
  have h0 := (w.extractLsb' 60 4).isLt
  have h1 := (w.extractLsb' 4 56).isLt
  omega

theorem matchesRow_wsamp (w : Word) :
    matchesRow w .wsamp = true ↔ field w 60 4 = 3 ∧ field w 48 12 = 0 ∧ field w 25 7 = 0 := by
  have hw : w =
      w.extractLsb' 60 4 ++ w.extractLsb' 48 12 ++ w.extractLsb' 32 16 ++ w.extractLsb' 25 7 ++ w.extractLsb' 0 25 := by
    apply BitVec.eq_of_toNat_eq
    have := w.isLt
    rw [toNat_append_eq, toNat_append_eq, toNat_append_eq, toNat_append_eq]
    simp only [BitVec.extractLsb'_toNat, Nat.shiftRight_eq_div_pow]
    omega
  have hm : w &&& opcodeMask .wsamp =
      w.extractLsb' 60 4 ++ w.extractLsb' 48 12 ++ 0#16 ++ w.extractLsb' 25 7 ++ 0#25 := by
    conv_lhs => rw [hw]
    rw [opcodeMask_wsamp, append_and_append, append_and_append, append_and_append, append_and_append]
    rw [BitVec.and_allOnes, BitVec.and_allOnes, BitVec.and_allOnes, BitVec.and_zero, BitVec.and_zero]
  have ho : (opcodeMatch .wsamp).toNat = 3 * 2 ^ 60 := rfl
  rw [matchesRow, beq_iff_eq, hm, ← BitVec.toNat_inj, ho]
  rw [toNat_append_eq, toNat_append_eq, toNat_append_eq, toNat_append_eq]
  simp only [field, BitVec.toNat_ofNat]
  have h0 := (w.extractLsb' 60 4).isLt
  have h1 := (w.extractLsb' 48 12).isLt
  have h2 := (w.extractLsb' 25 7).isLt
  omega

theorem matchesRow_nextb (w : Word) :
    matchesRow w .nextb = true ↔ field w 60 4 = 4 ∧ field w 16 44 = 0 := by
  have hw : w = w.extractLsb' 60 4 ++ w.extractLsb' 16 44 ++ w.extractLsb' 0 16 := by
    apply BitVec.eq_of_toNat_eq
    have := w.isLt
    rw [toNat_append_eq, toNat_append_eq]
    simp only [BitVec.extractLsb'_toNat, Nat.shiftRight_eq_div_pow]
    omega
  have hm : w &&& opcodeMask .nextb = w.extractLsb' 60 4 ++ w.extractLsb' 16 44 ++ 0#16 := by
    conv_lhs => rw [hw]
    rw [opcodeMask_nextb, append_and_append, append_and_append]
    rw [BitVec.and_allOnes, BitVec.and_allOnes, BitVec.and_zero]
  have ho : (opcodeMatch .nextb).toNat = 4 * 2 ^ 60 := rfl
  rw [matchesRow, beq_iff_eq, hm, ← BitVec.toNat_inj, ho]
  rw [toNat_append_eq, toNat_append_eq]
  simp only [field, BitVec.toNat_ofNat]
  have h0 := (w.extractLsb' 60 4).isLt
  have h1 := (w.extractLsb' 16 44).isLt
  omega

theorem matchesRow_ishf (w : Word) :
    matchesRow w .ishf = true ↔ field w 60 4 = 5 ∧ field w 32 28 = 0 := by
  have hw : w = w.extractLsb' 60 4 ++ w.extractLsb' 32 28 ++ w.extractLsb' 16 16 ++ w.extractLsb' 0 16 := by
    apply BitVec.eq_of_toNat_eq
    have := w.isLt
    rw [toNat_append_eq, toNat_append_eq, toNat_append_eq]
    simp only [BitVec.extractLsb'_toNat, Nat.shiftRight_eq_div_pow]
    omega
  have hm : w &&& opcodeMask .ishf = w.extractLsb' 60 4 ++ w.extractLsb' 32 28 ++ 0#16 ++ 0#16 := by
    conv_lhs => rw [hw]
    rw [opcodeMask_ishf, append_and_append, append_and_append, append_and_append]
    rw [BitVec.and_allOnes, BitVec.and_allOnes, BitVec.and_zero, BitVec.and_zero]
  have ho : (opcodeMatch .ishf).toNat = 5 * 2 ^ 60 := rfl
  rw [matchesRow, beq_iff_eq, hm, ← BitVec.toNat_inj, ho]
  rw [toNat_append_eq, toNat_append_eq, toNat_append_eq]
  simp only [field, BitVec.toNat_ofNat]
  have h0 := (w.extractLsb' 60 4).isLt
  have h1 := (w.extractLsb' 32 28).isLt
  omega

theorem matchesRow_judge (w : Word) :
    matchesRow w .judge = true ↔ field w 60 4 = 6 ∧ field w 33 27 = 0 := by
  have hw : w =
      w.extractLsb' 60 4 ++ w.extractLsb' 33 27 ++ w.extractLsb' 32 1 ++ w.extractLsb' 16 16 ++ w.extractLsb' 0 16 := by
    apply BitVec.eq_of_toNat_eq
    have := w.isLt
    rw [toNat_append_eq, toNat_append_eq, toNat_append_eq, toNat_append_eq]
    simp only [BitVec.extractLsb'_toNat, Nat.shiftRight_eq_div_pow]
    omega
  have hm : w &&& opcodeMask .judge = w.extractLsb' 60 4 ++ w.extractLsb' 33 27 ++ 0#1 ++ 0#16 ++ 0#16 := by
    conv_lhs => rw [hw]
    rw [opcodeMask_judge, append_and_append, append_and_append, append_and_append, append_and_append]
    rw [BitVec.and_allOnes, BitVec.and_allOnes, BitVec.and_zero, BitVec.and_zero, BitVec.and_zero]
  have ho : (opcodeMatch .judge).toNat = 6 * 2 ^ 60 := rfl
  rw [matchesRow, beq_iff_eq, hm, ← BitVec.toNat_inj, ho]
  rw [toNat_append_eq, toNat_append_eq, toNat_append_eq, toNat_append_eq]
  simp only [field, BitVec.toNat_ofNat]
  have h0 := (w.extractLsb' 60 4).isLt
  have h1 := (w.extractLsb' 33 27).isLt
  omega

theorem matchesRow_worst (w : Word) :
    matchesRow w .worst = true ↔ field w 60 4 = 7 ∧ field w 4 56 = 0 := by
  have hw : w = w.extractLsb' 60 4 ++ w.extractLsb' 4 56 ++ w.extractLsb' 2 2 ++ w.extractLsb' 0 2 := by
    apply BitVec.eq_of_toNat_eq
    have := w.isLt
    rw [toNat_append_eq, toNat_append_eq, toNat_append_eq]
    simp only [BitVec.extractLsb'_toNat, Nat.shiftRight_eq_div_pow]
    omega
  have hm : w &&& opcodeMask .worst = w.extractLsb' 60 4 ++ w.extractLsb' 4 56 ++ 0#2 ++ 0#2 := by
    conv_lhs => rw [hw]
    rw [opcodeMask_worst, append_and_append, append_and_append, append_and_append]
    rw [BitVec.and_allOnes, BitVec.and_allOnes, BitVec.and_zero, BitVec.and_zero]
  have ho : (opcodeMatch .worst).toNat = 7 * 2 ^ 60 := rfl
  rw [matchesRow, beq_iff_eq, hm, ← BitVec.toNat_inj, ho]
  rw [toNat_append_eq, toNat_append_eq, toNat_append_eq]
  simp only [field, BitVec.toNat_ofNat]
  have h0 := (w.extractLsb' 60 4).isLt
  have h1 := (w.extractLsb' 4 56).isLt
  omega

/-- The two words a halted block performs (60_exceptions.md R122) are the only words of their commands. -/
theorem decode_eq_srst {w : Word} (h : decode w = .ok .srst) : w = 0x8000000000000000 := by
  obtain ⟨o, ho, he⟩ := decode_eq_ok h
  cases o <;> simp only [operands, reduceCtorEq] at he
  have hm : w &&& opcodeMask .srst = w := BitVec.and_allOnes
  rw [matchesRow, beq_iff_eq, hm] at ho
  exact ho

theorem decode_eq_rdreg_zero {w : Word} (h : decode w = .ok (.rdreg 0)) : w = 0x2000000000000000 := by
  obtain ⟨o, ho, he⟩ := decode_eq_ok h
  cases o <;> simp only [operands, reduceCtorEq, Instr.rdreg.injEq] at he
  have h1 := (matchesRow_rdreg w).mp ho
  apply BitVec.eq_of_toNat_eq
  have := w.isLt
  simp only [field_eq] at h1 he
  show _ = 0x2000000000000000
  omega

theorem matchesRow_srst (w : Word) : matchesRow w .srst = true ↔ w = 0x8000000000000000 := by
  have h : w &&& opcodeMask .srst = w := BitVec.and_allOnes
  rw [matchesRow, beq_iff_eq, h]
  rfl

end Sys2Proof
end

