-- ==== Sys2Proof/Laws/State.lean ====
section
/-! SUPPORT. One lemma per field per named update of State, so that no proof unfolds a record update. -/

namespace Sys2Proof.Machine

open Sys2Proof

/-! ### answer -/

@[simp] theorem answer_halfWindow (w : Word) (s : State) : (answer w s).halfWindow = s.halfWindow := rfl
@[simp] theorem answer_judgeFn (w : Word) (s : State) : (answer w s).judgeFn = s.judgeFn := rfl
@[simp] theorem answer_timing (w : Word) (s : State) : (answer w s).timing = s.timing := rfl
@[simp] theorem answer_err (w : Word) (s : State) : (answer w s).err = s.err := rfl
@[simp] theorem answer_resp (w : Word) (s : State) : (answer w s).resp = w := rfl
@[simp] theorem answer_win (w : Word) (s : State) : (answer w s).win = s.win := rfl
@[simp] theorem answer_commands (w : Word) (s : State) : (answer w s).commands = s.commands := rfl
@[simp] theorem answer_responses (w : Word) (s : State) : (answer w s).responses = s.responses ++ [w] := rfl

/-! ### respond -/

@[simp] theorem respond_halfWindow (v : BitVec 32) (s : State) : (respond v s).halfWindow = s.halfWindow := rfl
@[simp] theorem respond_judgeFn (v : BitVec 32) (s : State) : (respond v s).judgeFn = s.judgeFn := rfl
@[simp] theorem respond_timing (v : BitVec 32) (s : State) : (respond v s).timing = s.timing := rfl
@[simp] theorem respond_err (v : BitVec 32) (s : State) : (respond v s).err = s.err := rfl
@[simp] theorem respond_resp (v : BitVec 32) (s : State) : (respond v s).resp = responseWord 0 v := rfl
@[simp] theorem respond_win (v : BitVec 32) (s : State) : (respond v s).win = s.win := rfl
@[simp] theorem respond_commands (v : BitVec 32) (s : State) : (respond v s).commands = s.commands := rfl
@[simp] theorem respond_responses (v : BitVec 32) (s : State) : (respond v s).responses = s.responses ++ [responseWord 0 v] := rfl

/-! ### raise -/

@[simp] theorem raise_halfWindow (e : ErrorCode) (s : State) : (raise e s).halfWindow = s.halfWindow := rfl
@[simp] theorem raise_judgeFn (e : ErrorCode) (s : State) : (raise e s).judgeFn = s.judgeFn := rfl
@[simp] theorem raise_timing (e : ErrorCode) (s : State) : (raise e s).timing = s.timing := rfl
@[simp] theorem raise_err (e : ErrorCode) (s : State) : (raise e s).err = some e := rfl
@[simp] theorem raise_resp (e : ErrorCode) (s : State) : (raise e s).resp = responseWord (errorNumber e) 0 := rfl
@[simp] theorem raise_win (e : ErrorCode) (s : State) : (raise e s).win = s.win := rfl
@[simp] theorem raise_commands (e : ErrorCode) (s : State) : (raise e s).commands = s.commands := rfl
@[simp] theorem raise_responses (e : ErrorCode) (s : State) : (raise e s).responses = s.responses ++ [responseWord (errorNumber e) 0] := rfl

/-! ### refuseHalted -/

@[simp] theorem refuseHalted_halfWindow (s : State) : (refuseHalted s).halfWindow = s.halfWindow := rfl
@[simp] theorem refuseHalted_judgeFn (s : State) : (refuseHalted s).judgeFn = s.judgeFn := rfl
@[simp] theorem refuseHalted_timing (s : State) : (refuseHalted s).timing = s.timing := rfl
@[simp] theorem refuseHalted_err (s : State) : (refuseHalted s).err = s.err := rfl
@[simp] theorem refuseHalted_resp (s : State) : (refuseHalted s).resp = responseWord 15 0 := rfl
@[simp] theorem refuseHalted_win (s : State) : (refuseHalted s).win = s.win := rfl
@[simp] theorem refuseHalted_commands (s : State) : (refuseHalted s).commands = s.commands := rfl
@[simp] theorem refuseHalted_responses (s : State) : (refuseHalted s).responses = s.responses ++ [responseWord 15 0] := rfl

/-! ### resetBlock -/

@[simp] theorem resetBlock_halfWindow (s : State) : (resetBlock s).halfWindow = s.halfWindow := rfl
@[simp] theorem resetBlock_judgeFn (s : State) : (resetBlock s).judgeFn = s.judgeFn := rfl
@[simp] theorem resetBlock_timing (s : State) : (resetBlock s).timing = none := rfl
@[simp] theorem resetBlock_err (s : State) : (resetBlock s).err = none := rfl
@[simp] theorem resetBlock_resp (s : State) : (resetBlock s).resp = 0 := rfl
@[simp] theorem resetBlock_win (s : State) : (resetBlock s).win = [] := rfl
@[simp] theorem resetBlock_commands (s : State) : (resetBlock s).commands = s.commands := rfl
@[simp] theorem resetBlock_responses (s : State) : (resetBlock s).responses = s.responses := rfl

/-! ### memWrite -/

@[simp] theorem memWrite_halfWindow (i : Nat) (v : Int) (s : State) : (memWrite i v s).halfWindow = s.halfWindow := rfl
@[simp] theorem memWrite_judgeFn (i : Nat) (v : Int) (s : State) : (memWrite i v s).judgeFn = s.judgeFn := rfl
@[simp] theorem memWrite_timing (i : Nat) (v : Int) (s : State) : (memWrite i v s).timing = s.timing := rfl
@[simp] theorem memWrite_err (i : Nat) (v : Int) (s : State) : (memWrite i v s).err = s.err := rfl
@[simp] theorem memWrite_resp (i : Nat) (v : Int) (s : State) : (memWrite i v s).resp = s.resp := rfl
@[simp] theorem memWrite_win (i : Nat) (v : Int) (s : State) : (memWrite i v s).win = Memory.write i (BitVec.ofInt 25 v) s.win := rfl
@[simp] theorem memWrite_commands (i : Nat) (v : Int) (s : State) : (memWrite i v s).commands = s.commands := rfl
@[simp] theorem memWrite_responses (i : Nat) (v : Int) (s : State) : (memWrite i v s).responses = s.responses := rfl

/-! ### offerCommand -/

@[simp] theorem offerCommand_halfWindow (w : Word) (s : State) : (offerCommand w s).halfWindow = s.halfWindow := rfl
@[simp] theorem offerCommand_judgeFn (w : Word) (s : State) : (offerCommand w s).judgeFn = s.judgeFn := rfl
@[simp] theorem offerCommand_timing (w : Word) (s : State) : (offerCommand w s).timing = s.timing := rfl
@[simp] theorem offerCommand_err (w : Word) (s : State) : (offerCommand w s).err = s.err := rfl
@[simp] theorem offerCommand_resp (w : Word) (s : State) : (offerCommand w s).resp = s.resp := rfl
@[simp] theorem offerCommand_win (w : Word) (s : State) : (offerCommand w s).win = s.win := rfl
@[simp] theorem offerCommand_commands (w : Word) (s : State) : (offerCommand w s).commands = w :: s.commands := rfl
@[simp] theorem offerCommand_responses (w : Word) (s : State) : (offerCommand w s).responses = s.responses := rfl

/-- The `RST` input and SRST share one reset. -/
@[simp] theorem pulseRst_eq (s : State) : pulseRst s = resetBlock s := rfl

end Sys2Proof.Machine
end

