-- ==== Sys2Proof/Laws/Exec.lean ====
section
/-! SUPPORT. Everything a command and a step can do, said once; the invariants cite these instead of unfolding exec. -/

namespace Sys2Proof.Machine

open Sys2Proof

theorem unlessHalted_running {s : State} (h : s.err = none) (r : Result) : unlessHalted s r = r := by
  simp [unlessHalted, halted, h]

theorem unlessHalted_halted {s : State} (h : s.err ≠ none) (r : Result) :
    unlessHalted s r = .next (refuseHalted s) := by
  simp [unlessHalted, halted, Option.isSome_iff_ne_none, h]

/-- The halted check answers ERR_HALTED, or the block runs and the command goes on. -/
theorem unlessHalted_next {s t : State} {r : Result} (h : unlessHalted s r = .next t) :
    (s.err ≠ none ∧ t = refuseHalted s) ∨ (s.err = none ∧ r = .next t) := by
  by_cases he : s.err = none
  · exact .inr ⟨he, by rwa [unlessHalted_running he] at h⟩
  · rw [unlessHalted_halted he] at h
    exact .inl ⟨he, (Host.Outcome.next.inj h).symm⟩

/-- What a command can do to a state when it answers a next state. -/
inductive ExecEffect (i : Instr) (s : State) : State → Prop
  /-- It answers OK and changes nothing else. -/
  | answered (v : BitVec 32) (h : s.err = none ∨ i = .rdreg 0) : ExecEffect i s (respond v s)
  /-- The block is halted and the command is not performed. -/
  | refused (h : s.err ≠ none) : ExecEffect i s (refuseHalted s)
  /-- It raises an error on a running block. -/
  | raised (e : ErrorCode) (h : s.err = none) : ExecEffect i s (raise e s)
  /-- CONFIG succeeds. -/
  | configured (sr lf : Nat) (hi : i = .config sr lf) (h : s.err = none) (hc : s.timing = none)
      (hs : sr ≠ 0) (hl : lf ≠ 0) :
      ExecEffect i s (respond 0 { s with timing := some (timingOf sr lf) })
  /-- WSAMP succeeds. -/
  | written (idx : Nat) (val : Int) (hi : i = .wsamp idx val) (h : s.err = none)
      (hx : idx < windowLength s) (hlo : -Config.fullScale ≤ val) (hhi : val ≤ Config.fullScale) :
      ExecEffect i s (respond 0 (memWrite idx val s))
  /-- SRST. -/
  | reset (hi : i = .srst) : ExecEffect i s (respond 0 (resetBlock s))

theorem execConfig_next {sr lf : Nat} {s t : State} (h : execConfig sr lf s = .next t) :
    ExecEffect (.config sr lf) s t := by
  rcases unlessHalted_next h with ⟨he, rfl⟩ | ⟨he, h⟩
  · exact .refused he
  · split at h
    · cases h; exact .raised _ he
    · rename_i hc
      split at h
      · cases h; exact .raised _ he
      · rename_i hz
        cases h
        obtain ⟨hs, hl⟩ := not_or.mp hz
        exact .configured sr lf rfl he (by simpa [cfgValid] using hc) hs hl

theorem execRdreg_next {reg : Nat} {s t : State} (h : execRdreg reg s = .next t) :
    ExecEffect (.rdreg reg) s t := by
  simp only [execRdreg] at h
  split at h
  · rename_i hr
    subst hr
    simp only [registerValue, Host.Outcome.next.injEq] at h
    subst h
    exact .answered _ (.inr rfl)
  · rcases unlessHalted_next h with ⟨he, rfl⟩ | ⟨he, h⟩
    · exact .refused he
    · split at h
      · cases h; exact .answered _ (.inl he)
      · cases h; exact .raised _ he

theorem execWsamp_next {idx : Nat} {val : Int} {s t : State} (h : execWsamp idx val s = .next t) :
    ExecEffect (.wsamp idx val) s t := by
  rcases unlessHalted_next h with ⟨he, rfl⟩ | ⟨he, h⟩
  · exact .refused he
  · split at h
    · cases h; exact .raised _ he
    · rename_i hx
      split at h
      · cases h; exact .raised _ he
      · rename_i hv
        cases h
        exact .written idx val rfl he (Nat.not_le.mp hx) (by omega) (by omega)

theorem execNextb_next {pos : Nat} {s t : State} (h : execNextb pos s = .next t) :
    ExecEffect (.nextb pos) s t := by
  rcases unlessHalted_next h with ⟨he, rfl⟩ | ⟨he, h⟩
  · exact .refused he
  · split at h
    · cases h; exact .raised _ he
    · split at h
      · cases h; exact .raised _ he
      · split at h
        · cases h; exact .raised _ he
        · split at h
          · cases h
          · cases h; exact .answered _ (.inl he)

theorem execIshf_next {pos1 pos2 : Nat} {s t : State} (h : execIshf pos1 pos2 s = .next t) :
    ExecEffect (.ishf pos1 pos2) s t := by
  rcases unlessHalted_next h with ⟨he, rfl⟩ | ⟨he, h⟩
  · exact .refused he
  · split at h
    · cases h; exact .raised _ he
    · cases h; exact .answered _ (.inl he)

theorem execJudge_next {pos1 pos2 : Nat} {hint : Bool} {s t : State}
    (h : execJudge pos1 pos2 hint s = .next t) : ExecEffect (.judge pos1 pos2 hint) s t := by
  rcases unlessHalted_next h with ⟨he, rfl⟩ | ⟨he, h⟩
  · exact .refused he
  · split at h
    · cases h; exact .raised _ he
    · split at h
      · cases h; exact .raised _ he
      · split at h
        · cases h; exact .raised _ he
        · split at h
          · cases h; exact .answered _ (.inl he)
          · cases h

theorem execWorst_next {a b : SignalJudge} {s t : State} (h : execWorst a b s = .next t) :
    ExecEffect (.worst a b) s t := by
  rcases unlessHalted_next h with ⟨he, rfl⟩ | ⟨he, h⟩
  · exact .refused he
  · cases h; exact .answered _ (.inl he)

theorem execSrst_next {s t : State} (h : execSrst s = .next t) : ExecEffect .srst s t := by
  cases h; exact .reset rfl

/-- Everything a command can do when it answers a next state. -/
theorem exec_next {i : Instr} {s t : State} (h : exec i s = .next t) : ExecEffect i s t := by
  cases i with
  | config sr lf => exact execConfig_next h
  | rdreg reg => exact execRdreg_next h
  | wsamp idx val => exact execWsamp_next h
  | nextb pos => exact execNextb_next h
  | ishf pos1 pos2 => exact execIshf_next h
  | judge pos1 pos2 hint => exact execJudge_next h
  | worst a b => exact execWorst_next h
  | srst => exact execSrst_next h

theorem takeCommand_nil {s : State} (h : s.commands = []) : takeCommand s = none := by
  simp [takeCommand, h]

theorem takeCommand_cons {s : State} {w : Word} {rest : List Word} (h : s.commands = w :: rest) :
    takeCommand s = some (w, { s with commands := rest }) := by
  simp [takeCommand, h]

/-- A step with a word to take: decode it, then perform the command or answer the illegal word. -/
theorem step_cons {s : State} {w : Word} {rest : List Word} (h : s.commands = w :: rest) :
    step s = match decode w with
      | .ok i => exec i { s with commands := rest }
      | .error _ => illegalWord { s with commands := rest } := by
  cases hd : decode w <;> simp only [step, takeCommand_cons h, hd]

theorem step_nil {s : State} (h : s.commands = []) : step s = .next s := by
  simp only [step, takeCommand_nil h]

/-- Everything a step can do when it answers a next state. -/
inductive StepEffect (s : State) : State → Prop
  /-- The host has sent nothing. -/
  | idle (h : s.commands = []) : StepEffect s s
  /-- The next word is a command. -/
  | performed (w : Word) (rest : List Word) (i : Instr) (t : State) (h : s.commands = w :: rest)
      (hd : decode w = .ok i) (he : ExecEffect i { s with commands := rest } t) : StepEffect s t
  /-- The next word is illegal and the block runs. -/
  | illegal (w : Word) (rest : List Word) (r : Reject) (h : s.commands = w :: rest)
      (hd : decode w = .error r) (he : s.err = none) :
      StepEffect s (raise .illegal { s with commands := rest })
  /-- The next word is illegal and the block is halted. -/
  | illegalHalted (w : Word) (rest : List Word) (r : Reject) (h : s.commands = w :: rest)
      (hd : decode w = .error r) (he : s.err ≠ none) :
      StepEffect s (refuseHalted { s with commands := rest })

theorem step_next {s t : State} (h : step s = .next t) : StepEffect s t := by
  cases hc : s.commands with
  | nil =>
    rw [step_nil hc] at h
    cases h
    exact .idle hc
  | cons w rest =>
    rw [step_cons hc] at h
    cases hd : decode w with
    | ok i =>
      rw [hd] at h
      exact .performed w rest i t hc hd (exec_next h)
    | error r =>
      rw [hd] at h
      rcases unlessHalted_next h with ⟨he, rfl⟩ | ⟨he, h⟩
      · exact .illegalHalted w rest r hc hd he
      · cases h
        exact .illegal w rest r hc hd he

end Sys2Proof.Machine
end

