-- ==== Sys2Proof/Laws/Memory.lean ====
section
/-! SUPPORT. The window memory: read after write, the canonical form, and what a range read answers. -/

namespace Sys2Proof.Machine

open Sys2Proof

/-- A read of the cell just written gives the value written. -/
@[simp] theorem Memory.read_write_same (i : Nat) (v : Sample) (m : Memory) :
    Memory.read i (Memory.write i v m) = some v := by
  induction m with
  | nil => simp [Memory.write, Memory.read]
  | cons c m ih =>
    obtain ⟨j, u⟩ := c
    simp only [Memory.write]
    split
    · simp [Memory.read]
    · split
      · simp [Memory.read]
      · rename_i _ hne
        simp [Memory.read, hne, ih]

/-- A write leaves every other cell alone. -/
theorem Memory.read_write_other {i k : Nat} (v : Sample) (m : Memory) (h : k ≠ i) :
    Memory.read k (Memory.write i v m) = Memory.read k m := by
  induction m with
  | nil => simp [Memory.write, Memory.read, h]
  | cons c m ih =>
    obtain ⟨j, u⟩ := c
    simp only [Memory.write]
    split
    · simp [Memory.read, h]
    · split
      · rename_i _ heq
        subst heq
        simp [Memory.read, h]
      · simp only [Memory.read, ih]

/-- Where an entry of the written window comes from. -/
theorem Memory.mem_write {i : Nat} {v : Sample} {m : Memory} {c : Nat × Sample}
    (h : c ∈ Memory.write i v m) : c = (i, v) ∨ c ∈ m := by
  induction m with
  | nil => simpa [Memory.write] using h
  | cons d m ih =>
    obtain ⟨j, u⟩ := d
    simp only [Memory.write] at h
    split at h
    · simpa using h
    · split at h
      · rcases List.mem_cons.mp h with h | h
        · exact .inl h
        · exact .inr (List.mem_cons_of_mem _ h)
      · rcases List.mem_cons.mp h with h | h
        · exact .inr (h ▸ List.mem_cons_self)
        · rcases ih h with h | h
          · exact .inl h
          · exact .inr (List.mem_cons_of_mem _ h)

/-- A write keeps the canonical form. -/
theorem Memory.write_wf {m : Memory} (i : Nat) (v : Sample) (h : Memory.wf m) :
    Memory.wf (Memory.write i v m) := by
  induction m with
  | nil => simp [Memory.write, Memory.wf]
  | cons d m ih =>
    obtain ⟨j, u⟩ := d
    simp only [Memory.wf, List.map_cons, List.pairwise_cons] at h
    obtain ⟨hj, hm⟩ := h
    simp only [Memory.write]
    split
    · rename_i hij
      simp only [Memory.wf, List.map_cons, List.pairwise_cons]
      refine ⟨fun a ha => ?_, hj, hm⟩
      rcases List.mem_cons.mp ha with rfl | ha
      · exact hij
      · exact hij.trans (hj a ha)
    · split
      · rename_i _ heq
        subst heq
        simpa only [Memory.wf, List.map_cons, List.pairwise_cons] using ⟨hj, hm⟩
      · rename_i hlt hne
        simp only [Memory.wf, List.map_cons, List.pairwise_cons]
        refine ⟨fun a ha => ?_, ih hm⟩
        obtain ⟨c, hc, rfl⟩ := List.mem_map.mp ha
        rcases Memory.mem_write hc with rfl | hc
        · exact Nat.lt_of_le_of_ne (Nat.not_lt.mp hlt) (fun e => hne e.symm)
        · exact hj _ (List.mem_map_of_mem hc)

/-- The memory after reset has the canonical form. -/
theorem State.reset_wf : Memory.wf State.reset.win := List.Pairwise.nil

/-- A cell that reads as a value is listed. -/
theorem Memory.mem_of_read {i : Nat} {v : Sample} {m : Memory} (h : Memory.read i m = some v) :
    (i, v) ∈ m := by
  induction m with
  | nil => simp [Memory.read] at h
  | cons c m ih =>
    obtain ⟨j, u⟩ := c
    simp only [Memory.read] at h
    split at h
    · rename_i heq
      cases h
      exact heq ▸ List.mem_cons_self
    · exact List.mem_cons_of_mem _ (ih h)

theorem memRead_eq_ok {s : State} {i : Nat} {c : Int} :
    memRead s i = .ok c ↔ ∃ v, Memory.read i s.win = some v ∧ v.toInt = c := by
  unfold memRead
  cases Memory.read i s.win <;> simp

theorem memRead_eq_error {s : State} {i : Nat} {e : ErrorCode} :
    memRead s i = .error e ↔ Memory.read i s.win = none ∧ e = .uninit := by
  unfold memRead
  cases Memory.read i s.win <;> simp [eq_comm]

/-- A range read fails only with ERR_UNINIT, and exactly when some cell of the range holds no value. -/
theorem readCells_eq_error {s : State} {i n : Nat} {e : ErrorCode} :
    readCells s i n = .error e ↔ e = .uninit ∧ ∃ k, k < n ∧ Memory.read (i + k) s.win = none := by
  induction n generalizing i e with
  | zero => simp [readCells]
  | succ n ih =>
    simp only [readCells]
    cases hm : memRead s i with
    | error e' =>
      obtain ⟨hn, rfl⟩ := memRead_eq_error.mp hm
      simp only [Except.error.injEq]
      exact ⟨fun h => ⟨h.symm, 0, by omega, by simpa using hn⟩, fun h => h.1.symm⟩
    | ok v =>
      obtain ⟨w, hw, -⟩ := memRead_eq_ok.mp hm
      cases hr : readCells s (i + 1) n with
      | error e' =>
        obtain ⟨rfl, k, hk, hn⟩ := ih.mp hr
        simp only [Except.error.injEq]
        refine ⟨fun h => ⟨h.symm, k + 1, by omega, ?_⟩, fun h => h.1.symm⟩
        rw [← hn]
        congr 1
        omega
      | ok vs =>
        simp only [reduceCtorEq, false_iff]
        rintro ⟨he, k, hk, hn⟩
        cases k with
        | zero => rw [Nat.add_zero, hw] at hn; cases hn
        | succ k =>
          rw [show i + (k + 1) = i + 1 + k by omega] at hn
          have := ih.mpr ⟨he, k, by omega, hn⟩
          rw [hr] at this
          cases this

/-- A range read that succeeds gives the cells' values in order. -/
theorem readCells_eq_ok {s : State} {i n : Nat} {vs : List Int} :
    readCells s i n = .ok vs ↔
      vs.length = n ∧ ∀ k, (h : k < vs.length) →
        ∃ v, Memory.read (i + k) s.win = some v ∧ v.toInt = vs[k] := by
  induction n generalizing i vs with
  | zero =>
    simp only [readCells, Except.ok.injEq]
    constructor
    · rintro rfl
      simp
    · rintro ⟨h, -⟩
      exact (List.eq_nil_of_length_eq_zero h).symm
  | succ n ih =>
    simp only [readCells]
    cases hm : memRead s i with
    | error e =>
      obtain ⟨hn, -⟩ := memRead_eq_error.mp hm
      simp only [reduceCtorEq, false_iff]
      rintro ⟨hl, h⟩
      obtain ⟨v, hv, -⟩ := h 0 (by omega)
      rw [Nat.add_zero, hn] at hv
      cases hv
    | ok v =>
      obtain ⟨w, hw, rfl⟩ := memRead_eq_ok.mp hm
      cases hr : readCells s (i + 1) n with
      | error e =>
        obtain ⟨-, k, hk, hn⟩ := readCells_eq_error.mp hr
        simp only [reduceCtorEq, false_iff]
        rintro ⟨hl, h⟩
        obtain ⟨v, hv, -⟩ := h (k + 1) (by omega)
        rw [show i + (k + 1) = i + 1 + k by omega, hn] at hv
        cases hv
      | ok us =>
        simp only [Except.ok.injEq]
        obtain ⟨hul, hu⟩ := ih.mp hr
        constructor
        · rintro rfl
          refine ⟨by simp [hul], fun k hk => ?_⟩
          cases k with
          | zero => exact ⟨w, by simpa using hw, rfl⟩
          | succ k =>
            obtain ⟨x, hx, hxe⟩ := hu k (by simpa using hk)
            exact ⟨x, by rw [← hx]; congr 1; omega, by simpa using hxe⟩
        · rintro ⟨hl, h⟩
          refine List.ext_getElem (by simp [hul, hl]) fun k h1 h2 => ?_
          obtain ⟨x, hx, hxe⟩ := h k h2
          cases k with
          | zero =>
            rw [Nat.add_zero, hw] at hx
            cases hx
            simpa using hxe
          | succ k =>
            obtain ⟨y, hy, hye⟩ := hu k (by simpa using h1)
            rw [show i + (k + 1) = i + 1 + k by omega, hy] at hx
            cases hx
            rw [← hxe, List.getElem_cons_succ, ← hye]

/-- A range read looks at nothing but the cells of the range. -/
theorem readCells_congr {s s' : State} {i n : Nat}
    (h : ∀ k, k < n → Memory.read (i + k) s.win = Memory.read (i + k) s'.win) :
    readCells s i n = readCells s' i n := by
  induction n generalizing i with
  | zero => rfl
  | succ n ih =>
    have h0 : memRead s i = memRead s' i := by
      unfold memRead
      rw [show Memory.read i s.win = Memory.read i s'.win by simpa using h 0 (by omega)]
    have hr : readCells s (i + 1) n = readCells s' (i + 1) n :=
      ih fun k hk => by
        have := h (k + 1) (by omega)
        rwa [show i + (k + 1) = i + 1 + k by omega] at this
    simp only [readCells, h0, hr]

end Sys2Proof.Machine
end

