-- ==== Sys2Proof/Laws/PerInstr.lean ====
section
/-! SUPPORT. Statements per command. EncodeRow: the word of a command lies in its own row of the opcode map, so every
must-be-zero bit of its format is 0 (30_encoding.md R51, R54). -/

namespace Sys2Proof.Laws.EncodeRow

open Sys2Proof

def Statement (i : Instr) : Prop := matchesRow (encode i) (opcodeOf i) = true

theorem config (sr lf : Nat) : Statement (.config sr lf) := by
  refine matchesRow_of_and_eq ?_
  rw [opcodeOf, encode, opcodeMask_config, append_and_append, append_and_append, append_and_append]
  simp [opcodeMatch]

theorem rdreg (reg : Nat) : Statement (.rdreg reg) := by
  refine matchesRow_of_and_eq ?_
  rw [opcodeOf, encode, opcodeMask_rdreg, append_and_append, append_and_append]
  simp [opcodeMatch]

theorem wsamp (idx : Nat) (val : Int) : Statement (.wsamp idx val) := by
  refine matchesRow_of_and_eq ?_
  rw [opcodeOf, encode, opcodeMask_wsamp, append_and_append, append_and_append, append_and_append, append_and_append]
  simp [opcodeMatch]

theorem nextb (pos : Nat) : Statement (.nextb pos) := by
  refine matchesRow_of_and_eq ?_
  rw [opcodeOf, encode, opcodeMask_nextb, append_and_append, append_and_append]
  simp [opcodeMatch]

theorem ishf (pos1 pos2 : Nat) : Statement (.ishf pos1 pos2) := by
  refine matchesRow_of_and_eq ?_
  rw [opcodeOf, encode, opcodeMask_ishf, append_and_append, append_and_append, append_and_append]
  simp [opcodeMatch]

theorem judge (pos1 pos2 : Nat) (hint : Bool) : Statement (.judge pos1 pos2 hint) := by
  refine matchesRow_of_and_eq ?_
  rw [opcodeOf, encode, opcodeMask_judge, append_and_append, append_and_append, append_and_append, append_and_append]
  simp [opcodeMatch]

theorem worst (a b : SignalJudge) : Statement (.worst a b) := by
  refine matchesRow_of_and_eq ?_
  rw [opcodeOf, encode, opcodeMask_worst, append_and_append, append_and_append, append_and_append]
  simp [opcodeMatch]

theorem srst : Statement .srst := rfl

end Sys2Proof.Laws.EncodeRow
end

