-- ==== Sys2Proof/Laws/Response.lean ====
section
/-! SUPPORT. Response words as numbers, and the fields of a response. -/

namespace Sys2Proof.Machine

open Sys2Proof

theorem toNat_responseWord (c : BitVec 4) (v : BitVec 32) :
    (responseWord c v).toNat = c.toNat * 2 ^ 60 + v.toNat := by
  unfold responseWord
  rw [toNat_append_eq, toNat_append_eq]
  simp
  omega

/-- An OK response carries its value. -/
theorem responseWord_ok (v : BitVec 32) : responseWord 0 v = okResponse v.toNat := by
  apply BitVec.eq_of_toNat_eq
  have := v.isLt
  rw [toNat_responseWord]
  simp [okResponse]
  omega

theorem responseWord_ofNat {v : Nat} (h : v < 2 ^ 32) :
    responseWord 0 (BitVec.ofNat 32 v) = okResponse v := by
  rw [responseWord_ok, BitVec.toNat_ofNat, Nat.mod_eq_of_lt h]

/-- A response of another code carries value 0. -/
theorem responseWord_code (c : BitVec 4) : responseWord c 0 = codeResponse c.toNat := by
  apply BitVec.eq_of_toNat_eq
  have := c.isLt
  rw [toNat_responseWord]
  simp [codeResponse]
  omega

@[simp] theorem responseCode_responseWord (c : BitVec 4) (v : BitVec 32) :
    responseCode (responseWord c v) = c.toNat := by
  have h1 := c.isLt
  have h2 := v.isLt
  rw [responseCode, field_eq, toNat_responseWord]
  omega

@[simp] theorem responseValue_responseWord (c : BitVec 4) (v : BitVec 32) :
    responseValue (responseWord c v) = v.toNat := by
  have h1 := c.isLt
  have h2 := v.isLt
  rw [responseValue, field_eq, toNat_responseWord]
  omega

/-- Every response the operations build is one the block may give, if its code and value agree. -/
theorem responseLegal_responseWord {c : BitVec 4} {v : BitVec 32} (hc : c.toNat ≤ 7 ∨ c.toNat = 15)
    (hv : c.toNat ≠ 0 → v = 0) : ResponseLegal (responseWord c v) := by
  have h1 := c.isLt
  have h2 := v.isLt
  refine ⟨?_, by simpa using hc, fun h => ?_⟩
  · rw [field_eq, toNat_responseWord]
    omega
  · rw [responseCode_responseWord] at h
    rw [responseValue_responseWord, hv h]
    rfl

/-- The codes of the errors are 1 to 7. -/
theorem errorNumber_range (e : ErrorCode) : 1 ≤ (errorNumber e).toNat ∧ (errorNumber e).toNat ≤ 7 := by
  cases e <;> decide

/-! ### The three ways of answering, as record updates -/

theorem respond_eq (v : BitVec 32) (s : State) :
    respond v s = { s with resp := okResponse v.toNat, responses := s.responses ++ [okResponse v.toNat] } := by
  simp only [respond, answer, responseWord_ok]

theorem raise_eq (e : ErrorCode) (s : State) :
    raise e s = { s with err := some e, resp := codeResponse (errorNumber e).toNat,
                         responses := s.responses ++ [codeResponse (errorNumber e).toNat] } := by
  simp only [raise, answer, responseWord_code]

theorem refuseHalted_eq (s : State) :
    refuseHalted s = { s with resp := codeResponse 15, responses := s.responses ++ [codeResponse 15] } := by
  simp only [refuseHalted, answer, responseWord_code]
  rfl

end Sys2Proof.Machine
end

