-- ==== Sys2Proof/Laws/Scan.lean ====
section
/-! SUPPORT. The two loops of NEXTB and the extremes of a range, each with what it guarantees. -/

namespace Sys2Proof.Machine

open Sys2Proof

/-- The forward loop stops within its bound, has passed only kept positions, and stops early only at one not kept. -/
theorem advanceWhile_spec (keep : Nat → Bool) (fuel p : Nat) :
    p ≤ advanceWhile keep fuel p ∧ advanceWhile keep fuel p ≤ p + fuel ∧
      (∀ k, p ≤ k → k < advanceWhile keep fuel p → keep k = true) ∧
      (advanceWhile keep fuel p < p + fuel → keep (advanceWhile keep fuel p) = false) := by
  induction fuel generalizing p with
  | zero => exact ⟨Nat.le_refl _, Nat.le_refl _, fun k h1 h2 => absurd h1 (Nat.not_le.mpr h2),
      fun h => absurd h (Nat.lt_irrefl _)⟩
  | succ n ih =>
    simp only [advanceWhile]
    split
    · rename_i hk
      obtain ⟨h1, h2, h3, h4⟩ := ih (p + 1)
      refine ⟨by omega, by omega, fun k hp hq => ?_, fun h => h4 (by omega)⟩
      rcases Nat.eq_or_lt_of_le hp with rfl | hp
      · exact hk
      · exact h3 k hp hq
    · rename_i hk
      exact ⟨Nat.le_refl _, by omega, fun k h1 h2 => absurd h1 (Nat.not_le.mpr h2),
        fun _ => by simpa using hk⟩

/-- The forward loop stops exactly at the first position not kept. -/
theorem advanceWhile_eq_first {keep : Nat → Bool} {fuel p q : Nat} (hpq : p ≤ q) (hq : q < p + fuel)
    (hk : ∀ k, p ≤ k → k < q → keep k = true) (hs : keep q = false) :
    advanceWhile keep fuel p = q := by
  obtain ⟨h1, h2, h3, h4⟩ := advanceWhile_spec keep fuel p
  rcases Nat.lt_trichotomy (advanceWhile keep fuel p) q with h | h | h
  · have := h4 (by omega)
    rw [hk _ h1 h] at this
    cases this
  · exact h
  · have := h3 q hpq h
    rw [hs] at this
    cases this

/-- The forward loop runs to its bound when every position is kept. -/
theorem advanceWhile_eq_end {keep : Nat → Bool} {fuel p : Nat}
    (hk : ∀ k, p ≤ k → k < p + fuel → keep k = true) : advanceWhile keep fuel p = p + fuel := by
  obtain ⟨h1, h2, h3, h4⟩ := advanceWhile_spec keep fuel p
  rcases Nat.eq_or_lt_of_le h2 with h | h
  · exact h
  · have := h4 h
    rw [hk _ h1 h] at this
    cases this

/-- The backward loop stops within its bound, has passed only kept positions, and stops early only at one not kept. -/
theorem retreatWhile_spec (keep : Nat → Bool) (fuel p : Nat) (hf : fuel ≤ p) :
    retreatWhile keep fuel p ≤ p ∧ p - fuel ≤ retreatWhile keep fuel p ∧
      (∀ k, retreatWhile keep fuel p < k → k ≤ p → keep k = true) ∧
      (p - fuel < retreatWhile keep fuel p → keep (retreatWhile keep fuel p) = false) := by
  induction fuel generalizing p with
  | zero => exact ⟨Nat.le_refl _, Nat.le_refl _, fun k h1 h2 => absurd h1 (Nat.not_lt.mpr h2),
      fun h => absurd h (Nat.lt_irrefl _)⟩
  | succ n ih =>
    simp only [retreatWhile]
    split
    · rename_i hk
      obtain ⟨h1, h2, h3, h4⟩ := ih (p - 1) (by omega)
      refine ⟨by omega, by omega, fun k hp hq => ?_, fun h => h4 (by omega)⟩
      rcases Nat.eq_or_lt_of_le hq with rfl | hq
      · exact hk
      · exact h3 k hp (by omega)
    · rename_i hk
      exact ⟨Nat.le_refl _, by omega, fun k h1 h2 => absurd h1 (Nat.not_lt.mpr h2),
        fun _ => by simpa using hk⟩

/-- The running maximum bounds the list and is attained. -/
theorem foldl_max_spec (c : Int) (cs : List Int) :
    (∀ x ∈ c :: cs, x ≤ cs.foldl max c) ∧ cs.foldl max c ∈ c :: cs := by
  induction cs generalizing c with
  | nil => simp
  | cons d ds ih =>
    obtain ⟨h1, h2⟩ := ih (max c d)
    simp only [List.foldl_cons]
    refine ⟨fun x hx => ?_, ?_⟩
    · have hm := h1 (max c d) List.mem_cons_self
      rcases List.mem_cons.mp hx with rfl | hx
      · exact (le_max_left _ _).trans hm
      · rcases List.mem_cons.mp hx with rfl | hx
        · exact (le_max_right _ _).trans hm
        · exact h1 x (List.mem_cons_of_mem _ hx)
    · rcases List.mem_cons.mp h2 with h2 | h2
      · rw [h2]
        rcases max_choice c d with h | h <;> rw [h] <;> simp
      · exact List.mem_cons_of_mem _ (List.mem_cons_of_mem _ h2)

/-- The running minimum bounds the list and is attained. -/
theorem foldl_min_spec (c : Int) (cs : List Int) :
    (∀ x ∈ c :: cs, cs.foldl min c ≤ x) ∧ cs.foldl min c ∈ c :: cs := by
  induction cs generalizing c with
  | nil => simp
  | cons d ds ih =>
    obtain ⟨h1, h2⟩ := ih (min c d)
    simp only [List.foldl_cons]
    refine ⟨fun x hx => ?_, ?_⟩
    · have hm := h1 (min c d) List.mem_cons_self
      rcases List.mem_cons.mp hx with rfl | hx
      · exact hm.trans (min_le_left _ _)
      · rcases List.mem_cons.mp hx with rfl | hx
        · exact hm.trans (min_le_right _ _)
        · exact h1 x (List.mem_cons_of_mem _ hx)
    · rcases List.mem_cons.mp h2 with h2 | h2
      · rw [h2]
        rcases min_choice c d with h | h <;> rw [h] <;> simp
      · exact List.mem_cons_of_mem _ (List.mem_cons_of_mem _ h2)

/-- The thresholds of a range are those of its greatest and least value. -/
theorem thresholds_eq_some {cells : List Int} {th : Thresholds} (h : thresholds cells = some th) :
    th = thresholdsOf th.mx th.mn ∧ th.mx ∈ cells ∧ th.mn ∈ cells ∧
      (∀ x ∈ cells, x ≤ th.mx) ∧ (∀ x ∈ cells, th.mn ≤ x) := by
  cases cells with
  | nil => simp [thresholds] at h
  | cons c cs =>
    simp only [thresholds, Option.some.injEq] at h
    subst h
    exact ⟨rfl, (foldl_max_spec c cs).2, (foldl_min_spec c cs).2, (foldl_max_spec c cs).1,
      (foldl_min_spec c cs).1⟩

/-- The extremes are determined: a value of the range that bounds it is the maximum, or the minimum. -/
theorem thresholds_of_extremes {cells : List Int} {mx mn : Int} (h1 : mx ∈ cells) (h2 : mn ∈ cells)
    (h3 : ∀ x ∈ cells, x ≤ mx) (h4 : ∀ x ∈ cells, mn ≤ x) :
    thresholds cells = some (thresholdsOf mx mn) := by
  cases ht : thresholds cells with
  | none =>
    cases cells with
    | nil => cases h1
    | cons c cs => simp [thresholds] at ht
  | some th =>
    obtain ⟨he, ha, hb, hc, hd⟩ := thresholds_eq_some ht
    have hx : th.mx = mx := le_antisymm (h3 _ ha) (hc _ h1)
    have hn : th.mn = mn := le_antisymm (hd _ h2) (h4 _ hb)
    rw [he, hx, hn]

end Sys2Proof.Machine
end

