-- ==== Sys2Proof/Tests/Slice0.lean ====
section
/-! SUPPORT. Tests with expected values from the spec's worked examples and vectors (95_test_vectors.md), and a witness for
the hypotheses of every statement. -/

namespace Sys2Proof.Tests

open Sys2Proof Sys2Proof.Machine

/-! ### Small states -/

/-- Cells 0, 1, 2, ... with the listed values. -/
def windowOf (cells : List Int) : Memory := cells.zipIdx.map fun c => (c.2, BitVec.ofInt 25 c.1)

/-- Set A of file 95: CONFIG 9600, 38400 gives T34 = 2, T54 = 5, T94 = 9. -/
def timingA : Timing where
  sampleRate := 9600
  lowFreq := 38400
  t34 := 2
  t54 := 5
  t94 := 9

/-- A configured block with `H = 8` (L = 16), as set A of file 95 has it. -/
def blockA (cells : List Int) : State :=
  { State.reset with halfWindow := 8, timing := some timingA, win := windowOf cells }

/-- The source's pair: CONFIG 44100, 38400 gives 12, 24, 38. -/
def timing44100 : Timing where
  sampleRate := 44100
  lowFreq := 38400
  t34 := 12
  t54 := 24
  t94 := 38

/-- A configured block with `H = 512` and nothing written. -/
def block44100 : State := { State.reset with timing := some timing44100 }

/-- `s` after the error `e`. -/
def haltedBy (e : ErrorCode) (s : State) : State := { s with err := some e }

/-- The answer of a result, if it is a next state. -/
def answerOf : Result → Option Word
  | .next t => some t.resp
  | .fault _ => none
  | .refused _ => none

/-- Whether a result is a next state. -/
def completes : Result → Bool
  | .next _ => true
  | .fault _ => false
  | .refused _ => false

/-- STATUS after a result, if it is a next state. -/
def statusAfter : Result → Option (BitVec 32)
  | .next t => some (statusWord t)
  | .fault _ => none
  | .refused _ => none

/-- The window after a result, if it is a next state. -/
def windowAfter : Result → Option Memory
  | .next t => some t.win
  | .fault _ => none
  | .refused _ => none

/-- The timing registers after a result, if it is a next state. -/
def timingAfter : Result → Option (Option Timing)
  | .next t => some t.timing
  | .fault _ => none
  | .refused _ => none

/-- A completing result is some next state. -/
theorem next_of_completes {r : Result} (h : completes r = true) : ∃ t, r = .next t := by
  cases r with
  | next t => exact ⟨t, rfl⟩
  | fault f => cases h
  | refused f => cases h

/-! ### WellFormed: an ill-formed term for each check, and the greatest operands it admits (30_encoding.md R52) -/

theorem test_illFormed_config_sr : (Instr.config 16777216 1).wellFormed = false := by decide
theorem test_illFormed_config_lf : (Instr.config 1 4294967296).wellFormed = false := by decide
theorem test_illFormed_rdreg_reg : (Instr.rdreg 16).wellFormed = false := by decide
theorem test_illFormed_wsamp_idx : (Instr.wsamp 65536 0).wellFormed = false := by decide
theorem test_illFormed_wsamp_val_high : (Instr.wsamp 0 16777216).wellFormed = false := by decide
theorem test_illFormed_wsamp_val_low : (Instr.wsamp 0 (-16777217)).wellFormed = false := by decide
theorem test_illFormed_nextb_pos : (Instr.nextb 65536).wellFormed = false := by decide
theorem test_illFormed_ishf_pos1 : (Instr.ishf 65536 0).wellFormed = false := by decide
theorem test_illFormed_ishf_pos2 : (Instr.ishf 0 65536).wellFormed = false := by decide
theorem test_illFormed_judge_pos1 : (Instr.judge 65536 0 true).wellFormed = false := by decide
theorem test_illFormed_judge_pos2 : (Instr.judge 0 65536 true).wellFormed = false := by decide

/-- Witness of EncodedCommandDecodesBack, WordIsTheAssemblersSum and PlacedWordIsTheNextCommand: the greatest (and least)
operands of every command. -/
theorem witness_wellFormed_greatest :
    (Instr.config 16777215 4294967295).wellFormed = true ∧ (Instr.rdreg 15).wellFormed = true ∧
    (Instr.wsamp 65535 16777215).wellFormed = true ∧ (Instr.wsamp 0 (-16777216)).wellFormed = true ∧
    (Instr.nextb 65535).wellFormed = true ∧ (Instr.ishf 65535 65535).wellFormed = true ∧
    (Instr.judge 65535 65535 true).wellFormed = true ∧ (Instr.worst .D .D).wellFormed = true ∧
    Instr.srst.wellFormed = true := by decide

/-! ### Decode: words written out bit by bit from the pictures of 30_encoding.md R51 -/

/-- Opcode 0001, 0000, `sr` = 44100, `lf` = 38400. -/
theorem test_decode_config : decode
    0b0001_0000_000000001010110001000100_00000000000000001001011000000000#64 = .ok (.config 44100 38400) := by
  decide

/-- Opcode 0010, 56 zeros, `reg` = 5. -/
theorem test_decode_rdreg : decode
    0b0010_00000000000000000000000000000000000000000000000000000000_0101#64 = .ok (.rdreg 5) := by decide

/-- Opcode 0011, 12 zeros, `idx` = 9, 7 zeros, `val` = -3194304 (file 95, P4). -/
theorem test_decode_wsamp : decode
    0b0011_000000000000_0000000000001001_0000000_1110011110100001001000000#64 = .ok (.wsamp 9 (-3194304)) := by
  decide

/-- Opcode 0100, 44 zeros, `pos` = 243. -/
theorem test_decode_nextb : decode
    0b0100_00000000000000000000000000000000000000000000_0000000011110011#64 = .ok (.nextb 243) := by decide

/-- Opcode 0101, 28 zeros, `pos2` = 215, `pos1` = 179. -/
theorem test_decode_ishf : decode
    0b0101_0000000000000000000000000000_0000000011010111_0000000010110011#64 = .ok (.ishf 179 215) := by decide

/-- Opcode 0110, 27 zeros, `hint` = 1, `pos2` = 35, `pos1` = 17. -/
theorem test_decode_judge : decode
    0b0110_000000000000000000000000000_1_0000000000100011_0000000000010001#64 = .ok (.judge 17 35 true) := by
  decide

/-- Opcode 0111, 56 zeros, `b` = 3, `a` = 1. -/
theorem test_decode_worst : decode
    0b0111_00000000000000000000000000000000000000000000000000000000_11_01#64 = .ok (.worst .B .D) := by decide

/-- Opcode 1000, 60 zeros. -/
theorem test_decode_srst : decode
    0b1000_000000000000000000000000000000000000000000000000000000000000#64 = .ok .srst := by decide

/-- File 95 section 2.8: illegal words, by the ground that refuses each. -/
theorem test_decode_illegal_words :
    decode 0x0000000000000000 = .error .reservedOpcode ∧ decode 0xFFFFFFFFFFFFFFFF = .error .reservedOpcode ∧
    decode 0x9000000000000000 = .error .reservedOpcode ∧ decode 0x1100AC4400009600 = .error .mustBeZero ∧
    decode 0x2000000000000010 = .error .mustBeZero ∧ decode 0x3000000002000000 = .error .mustBeZero ∧
    decode 0x3001000000000000 = .error .mustBeZero ∧ decode 0x4000000000010000 = .error .mustBeZero ∧
    decode 0x5000000100000000 = .error .mustBeZero ∧ decode 0x6000000200000000 = .error .mustBeZero ∧
    decode 0x7000000000000010 = .error .mustBeZero ∧ decode 0x8000000000000001 = .error .mustBeZero := by decide

/-- 20_memory.md R39: `CONFIG 44100, 38400` (0x1000AC4400009600) on a byte-wide channel, with one byte after it. -/
theorem test_decode_bytes :
    decodeBytes [0x00, 0x96, 0x00, 0x00, 0x44, 0xAC, 0x00, 0x10, 0x77] = .ok (.config 44100 38400, [0x77]) := by
  decide

/-- The table's numbering of the bits, least significant first: `ISHF 35, 53` is 0x5000000000350023 (file 95, 2.5). -/
theorem test_decodeTableWord : decodeTableWord 64 0x5000000000350023 = some (.ishf 35 53) := by decide

/-! ### One step of each command -/

/-- File 95 S1: `CONFIG 44100, 38400` gives 12, 24, 38. -/
theorem test_config_44100 : timingAfter (exec (.config 44100 38400) State.reset) = some (some timing44100) := by
  decide

/-- File 95 2.1: a second `CONFIG 0, 0` answers ERR_LOCKED, and STATUS is then 0x31. -/
theorem test_config_locked_before_cfg :
    answerOf (exec (.config 0 0) block44100) = some 0x3000000000000000 ∧
    statusAfter (exec (.config 0 0) block44100) = some 0x31 := by decide

/-- File 95 2.2: after `CONFIG 44100, 38400`, `RDREG 5` answers 38. -/
theorem test_rdreg_t94 : answerOf (exec (.rdreg 5) block44100) = some 38 := by decide

/-- R73: after an ERR_RANGE on a configured block, `RDREG 0` answers OK 0x51. -/
theorem test_rdreg_status_when_halted :
    answerOf (exec (.rdreg 0) (haltedBy .range block44100)) = some 0x51 := by decide

/-- File 95 2.3: `WSAMP 1023, -4194304` on a fresh block. -/
theorem test_wsamp_last_cell :
    windowAfter (exec (.wsamp 1023 (-4194304)) State.reset) = some [(1023, 0x1C00000)] := by decide

/-- File 95 2.3: `WSAMP 1024, 8388609` answers ERR_RANGE, range before sample. -/
theorem test_wsamp_range_before_sample :
    answerOf (exec (.wsamp 1024 8388609) State.reset) = some 0x5000000000000000 := by decide

/-- File 95 2.4, A6: the walk passes a cell equal to `avg`. -/
theorem test_nextb_A6 : answerOf (exec (.nextb 0)
    (blockA [-8, 8, 8, -2, 0, 2, 8, 8, 8, 8, 8, 8, 8, 8, 8, 8])) = some 3 := by decide

/-- File 95 2.4, A11: exhausted in phase 1 with a last cell equal to `avg`, walk down to `spos`. -/
theorem test_nextb_A11 : answerOf (exec (.nextb 0)
    (blockA [-8, 8, 8, 8, 8, 8, 8, 8, 0, 0, 0, 0, 0, 0, 0, 0])) = some 2 := by decide

/-- File 95 2.5: `ISHF 100, 124` and `ISHF 100, 125` stand on the two sides of T54 = 24. -/
theorem test_ishf_threshold :
    answerOf (exec (.ishf 100 124) block44100) = some 1 ∧ answerOf (exec (.ishf 100 125) block44100) = some 0 := by
  decide

/-- File 95 2.5: `ISHF 65535, 0` does not wrap around. -/
theorem test_ishf_negative : answerOf (exec (.ishf 65535 0) block44100) = some 1 := by decide

/-- File 95 2.6, region edges: `s34 = -8`, `s54 = -1`, hint 1 answers 2, and hint 0 with `s34 = 8` answers 1. -/
theorem test_judge_regions :
    answerOf (exec (.judge 0 4 true) (blockA [-8, 8, -8, 0, 0, -1, 0, 0, 0])) = some 2 ∧
    answerOf (exec (.judge 0 4 false) (blockA [-8, 8, 8, 0, 0, -1, 0, 0, 0])) = some 1 := by decide

/-- File 95 2.6: with all cells 5, `JUDGE 10, 12, 1` answers 3 and `JUDGE 11, 12, 1` answers ERR_RANGE. -/
theorem test_judge_range :
    answerOf (exec (.judge 10 12 true) (blockA (List.replicate 16 5))) = some 3 ∧
    answerOf (exec (.judge 11 12 true) (blockA (List.replicate 16 5))) = some 0x5000000000000000 := by decide

/-- File 95 2.7: `WORST 1, 3` and `WORST 2, 1`, on a fresh block. -/
theorem test_worst :
    answerOf (exec (.worst .B .D) State.reset) = some 3 ∧ answerOf (exec (.worst .C .B) State.reset) = some 2 := by
  decide

/-- File 95 P3, rows 19 and 20: SRST after ERR_UNINIT leaves no cell, no configuration and no error. -/
theorem test_srst :
    exec .srst (haltedBy .uninit (blockA [100])) =
      .next { State.reset with halfWindow := 8, responses := [0] } := by rfl

/-- File 95 2.2: 0x8000000000000001 answers ERR_ILLEGAL on a running block and ERR_HALTED on a halted one. -/
theorem test_srst_bit_set :
    answerOf (step (offerCommand 0x8000000000000001 State.reset)) = some 0x1000000000000000 ∧
    answerOf (step (offerCommand 0x8000000000000001 (haltedBy .nocfg State.reset))) = some 0xF000000000000000 := by
  decide

/-- 93_implementation_defined.md I6: there is no block with an illegal `H`. -/
theorem test_instantiate_refuses :
    instantiate 0 .judgeDefault [] = none ∧ instantiate 32769 .judgeDefault [] = none := by decide

/-! ### Witnesses: states and operands that meet the hypotheses of the statements -/

/-- DecodedWordIsItsCommandsWord, SrstEndsTheSession (its word clauses) and ByteChannelIsLittleEndian: the least and the
greatest word of CONFIG, an SRST, an SRST word with its top must-be-zero bit set, and seven bytes. -/
theorem witness_words :
    decode 0x1000000000000000 = .ok (.config 0 0) ∧
    decode 0x10FFFFFFFFFFFFFF = .ok (.config 16777215 4294967295) ∧
    decode 0x8000000000000000 = .ok .srst ∧
    (field 0x8800000000000000 60 4 = 8 ∧ field 0x8800000000000000 0 60 ≠ 0) ∧
    decode 0x0000000000000000 = .error .reservedOpcode ∧ (List.replicate 7 (0 : Byte)).length < 8 := by decide

/-- WordIsTheAssemblersSum: the two ends of the sample field meet its hypotheses, and its greatest positions do. -/
theorem witness_assembler_bounds :
    (-(2 ^ 24) ≤ (-16777216 : Int) ∧ (-16777216 : Int) < 2 ^ 24) ∧ (16777215 : Int) < 2 ^ 24 ∧
    (65535 < 2 ^ 16 ∧ 15 < 2 ^ 4 ∧ 16777215 < 2 ^ 24 ∧ 4294967295 < 2 ^ 32) := by decide

/-- `s` with two words to take: `w`, then RDREG 3. -/
def queued (s : State) (w : Word) : State := { s with commands := [w, 0x2000000000000003] }

/-- StepRunsTheDecodedCommand, EveryWordIsAnsweredOnce, IdleBlockHoldsItsState. -/
theorem witness_step :
    (queued block44100 0x2000000000000005).commands = [0x2000000000000005, 0x2000000000000003] ∧
    decode 0x2000000000000005 = .ok (.rdreg 5) ∧
    (∃ t, step (queued block44100 0x2000000000000005) = .next t) ∧ State.reset.commands = [] :=
  ⟨rfl, by decide, ⟨_, rfl⟩, rfl⟩

/-- CommonChecksInOrder: a state for each of its five clauses; the third at two words next to the excepted ones. -/
theorem witness_common_checks :
    (haltedBy .nocfg block44100).err ≠ none ∧
    (0x8000000000000001 : Word) ≠ 0x8000000000000000 ∧ (0x2000000000000001 : Word) ≠ 0x2000000000000000 ∧
    block44100.err = none ∧ (∀ i, decode 0x9000000000000000 ≠ .ok i) ∧
    decode 0x300003FF00800000 = .ok (.wsamp 1023 8388608) := by
  refine ⟨by decide, by decide, by decide, rfl, fun i h => ?_, by decide⟩
  rw [show decode 0x9000000000000000 = .error .reservedOpcode by decide] at h
  cases h

/-- ErrorWritesStatusAndResponseOnly: words that answer the least and the greatest code of an error. -/
theorem witness_errors :
    (∃ t, (queued block44100 0).commands = [0, 0x2000000000000003] ∧ step (queued block44100 0) = .next t ∧
      1 ≤ responseCode t.resp ∧ responseCode t.resp ≤ 7) ∧
    (∃ t, step (queued block44100 0x3000000500800001) = .next t ∧
      1 ≤ responseCode t.resp ∧ responseCode t.resp ≤ 7) :=
  ⟨⟨_, rfl, rfl, by decide, by decide⟩, ⟨_, rfl, by decide, by decide⟩⟩

/-- FirstErrorSticksUntilReset: a halted block with two words to take, neither SRST. -/
theorem witness_first_error :
    (queued (haltedBy .sample block44100) 0).err = some .sample ∧
    (∀ w ∈ (queued (haltedBy .sample block44100) 0).commands.take 2, w ≠ 0x8000000000000000) ∧
    ∃ t, Host.Core.run Sys2Proof.core 2 (queued (haltedBy .sample block44100) 0) = .next t := by
  refine ⟨rfl, fun w h => ?_, ⟨_, rfl⟩⟩
  rcases List.mem_cons.mp (show w ∈ [(0 : Word), 0x2000000000000003] from h) with rfl | h
  · decide
  · rcases List.mem_cons.mp h with rfl | h
    · decide
    · cases h

/-- OnlySrstLeavesTheHaltedState. -/
theorem witness_leaves_halted : ∃ t, (haltedBy .cfg State.reset).err ≠ none ∧
    exec .srst (haltedBy .cfg State.reset) = .next t ∧ t.err ≠ (haltedBy .cfg State.reset).err :=
  ⟨_, by decide, rfl, by decide⟩

/-- Cells of A1 (file 95, 2.4). -/
def cellsA1 : List Int := [-8, 8, 8, -8, -8, 8, 8, -8, -8, 8, 8, 8, 8, 8, 8, 8]

/-- CommandsAnswerOnlyTheirCodes, NothingDependsOnTheJudgeFunction, RegisterFrameOfEveryCommand,
WindowFrameOfEveryCommand, AnswerIgnoresTheLatchAndTheHost: every command completes, and one of each of its kinds of
answer does. -/
theorem witness_commands_complete :
    (∃ t, exec (.config 1 1) State.reset = .next t) ∧ (∃ t, exec (.rdreg 6) (blockA cellsA1) = .next t) ∧
    (∃ t, exec (.wsamp 15 8388608) (blockA cellsA1) = .next t) ∧ (∃ t, exec (.nextb 0) (blockA cellsA1) = .next t) ∧
    (∃ t, exec (.ishf 0 4) (blockA cellsA1) = .next t) ∧ (∃ t, exec (.judge 0 4 true) (blockA cellsA1) = .next t) ∧
    (∃ t, exec (.worst .A .D) (blockA cellsA1) = .next t) ∧ (∃ t, exec .srst (blockA cellsA1) = .next t) ∧
    (∃ t, exec (.nextb 16) (blockA cellsA1) = .next t) ∧
    (∃ t, exec (.nextb 0) (haltedBy .range (blockA cellsA1)) = .next t) := by
  refine ⟨?_, ?_, ?_, ?_, ?_, ?_, ?_, ?_, ?_, ?_⟩ <;> exact next_of_completes (by decide)

/-- RegisterFrameOfEveryCommand, WindowFrameOfEveryCommand, OtherCommandsReadNoCell: the premises on the command and on
the answer, at code 0, at an error and at ERR_HALTED. -/
theorem witness_frames :
    (Instr.rdreg 6 ≠ .srst ∧ (∀ sr lf, Instr.rdreg 6 ≠ .config sr lf) ∧ (∀ a val, Instr.rdreg 6 ≠ .wsamp a val) ∧
      (∀ pos, Instr.rdreg 6 ≠ .nextb pos) ∧ (∀ p q h, Instr.rdreg 6 ≠ .judge p q h)) ∧
    (answerOf (exec (.rdreg 6) (blockA cellsA1))).map responseCode = some 0 ∧
    (answerOf (exec (.nextb 16) (blockA cellsA1))).map responseCode = some 5 ∧
    (answerOf (exec (.nextb 0) (haltedBy .range (blockA cellsA1)))).map responseCode = some 15 := by
  refine ⟨⟨?_, ?_, ?_, ?_, ?_⟩, by decide, by decide, by decide⟩ <;> intros <;> exact fun h => by cases h

/-- StatusWordLayout (its clause on a held error), HaltedBlockRefusesCommands: a halted block and a command it refuses. -/
theorem witness_halted :
    (haltedBy .sample block44100).err = some .sample ∧ (haltedBy .sample block44100).err ≠ none ∧
    Instr.rdreg 1 ≠ .srst ∧ Instr.rdreg 1 ≠ .rdreg 0 := by decide

/-- ConfigDerivesTheTiming, TimingIsTheSourcesFormula: running blocks, configured and not, with the least and the greatest
operands. -/
theorem witness_config :
    (block44100.err = none ∧ block44100.timing ≠ none) ∧ (State.reset.err = none ∧ State.reset.timing = none) ∧
    ((0 : Nat) < 2 ^ 24 ∧ (0 : Nat) < 2 ^ 32) ∧
    (0 < 16777215 ∧ 16777215 < 2 ^ 24 ∧ 0 < 1 ∧ 4294967295 < 2 ^ 32) := by decide

/-- TimingIsOrderedAndImmutable, EveryStepKeepsTheTimingExact, EveryRunIsAnsweredToTheEnd: exact timing registers, with two
words to take. -/
theorem witness_timing_legal :
    TimingLegal (queued block44100 0) ∧ (queued block44100 0).timing = some timing44100 ∧
    (∃ t, step (queued block44100 0) = .next t) ∧ (∃ t, exec (.rdreg 3) block44100 = .next t) ∧
    Instr.rdreg 3 ≠ .srst := by
  refine ⟨fun t h => ?_, rfl, ⟨_, rfl⟩, next_of_completes (by decide), by decide⟩
  cases h
  decide

/-- RdregReadsTheRegisters: the ends of its register ranges, a configured and an unconfigured block. -/
theorem witness_rdreg :
    block44100.err = none ∧ block44100.timing = some timing44100 ∧
    (1, timing44100.sampleRate.toNat) ∈ [(1, timing44100.sampleRate.toNat), (5, timing44100.t94.toNat)] ∧
    State.reset.timing = none ∧ ((1 ≤ 1 ∧ 1 ≤ 5) ∧ 5 ≤ 5) ∧ State.reset.halfWindow ≤ 32768 ∧
    ({ State.reset with halfWindow := 32768 } : State).halfWindow ≤ 32768 ∧ 7 ≤ 7 := by decide

/-- MemReadAnswersTheCell, MemWriteChangesOneCell: a written and an empty cell, and the two ends of the sample range. -/
theorem witness_memory :
    CellHolds (blockA cellsA1) 15 8 ∧ CellEmpty (blockA cellsA1) 16 ∧ CellEmpty State.reset 0 ∧
    (-8388608 ≤ (-8388608 : Int) ∧ (-8388608 : Int) ≤ 8388608) ∧ (8388608 : Int) ≤ 8388608 ∧ 3 ≠ 4 :=
  ⟨⟨8, by decide, by decide⟩, by unfold CellEmpty; decide, rfl, by decide, by decide, by decide⟩

/-- WsampWritesOneCell: the index and the value on the two sides of each test. -/
theorem witness_wsamp :
    State.reset.err = none ∧ 2 * State.reset.halfWindow ≤ 1024 ∧ 1023 < 2 * State.reset.halfWindow ∧
    ((-8388609 : Int) < -8388608 ∨ (8388608 : Int) < -8388609) ∧
    ((8388609 : Int) < -8388608 ∨ (8388608 : Int) < 8388609) ∧
    ((-8388608 : Int) ≤ -8388608 ∧ (8388608 : Int) ≤ 8388608) := by decide

/-- NextbErrorsInOrder: `pos = L` and `pos = L - 1`, and A18's range, whose last cell alone is empty. -/
theorem witness_nextb_errors :
    (State.reset.err = none ∧ State.reset.timing = none) ∧
    ((blockA (List.replicate 8 1)).err = none ∧ (blockA (List.replicate 8 1)).timing ≠ none ∧
      2 * (blockA (List.replicate 8 1)).halfWindow ≤ 16) ∧
    (blockA (List.replicate 8 1)).timing = some timingA ∧ 15 < 2 * (blockA (List.replicate 8 1)).halfWindow ∧
    ∃ i, 0 ≤ i ∧ i < min (0 + timingA.t94.toNat) (2 * (blockA (List.replicate 8 1)).halfWindow) ∧
      CellEmpty (blockA (List.replicate 8 1)) i :=
  ⟨⟨rfl, rfl⟩, ⟨rfl, by decide, by decide⟩, rfl, by decide, 8, by decide, by decide, by unfold CellEmpty; decide⟩

/-- The values of a listed window, as a function of the index. -/
def valueAt (cells : List Int) (i : Nat) : Int := cells.getD i 0

/-- NextbAnswersTheBoundary and BoundaryIsAnUpwardCrossing: A1, with phase 1 stopped at 3 and phase 2 at 5. -/
theorem witness_boundary :
    (blockA cellsA1).err = none ∧ (blockA cellsA1).timing = some timingA ∧ (blockA cellsA1).halfWindow ≤ 32768 ∧
    RangeHolds (blockA cellsA1) timingA 0 9 (valueAt cellsA1) 8 (-8) ∧ (-8 : Int) < 8 ∧
    ScanStops (fun p => 8 * valueAt cellsA1 p ≤ 3 * 8 + 5 * -8) (0 + timingA.t34.toNat) 9 3 ∧
    ScanStops (fun p => 5 * 8 + 3 * -8 ≤ 8 * valueAt cellsA1 p) 3 9 5 ∧ 5 < 9 := by
  refine ⟨rfl, rfl, by decide, ⟨by decide, by decide, ?_, ⟨1, by decide⟩, ⟨0, by decide⟩, ?_, ?_⟩, by decide,
    ⟨by decide, by decide, ?_, by decide⟩, ⟨by decide, by decide, ?_, by decide⟩, by decide⟩
  · intro i _ h
    interval_cases i <;> exact ⟨_, rfl, by decide⟩
  · intro i _ h
    interval_cases i <;> decide
  · intro i _ h
    interval_cases i <;> decide
  · intro k h1 h2
    have h1 : 2 ≤ k := h1
    interval_cases k
    decide
  · intro k h1 h2
    interval_cases k <;> decide

/-- NextbAnswersTheBoundary at the last start position: the range is the one cell 15. -/
theorem witness_boundary_last :
    RangeHolds (blockA cellsA1) timingA 15 16 (valueAt cellsA1) 8 8 := by
  refine ⟨by decide, by decide, ?_, ⟨15, by decide⟩, ⟨15, by decide⟩, ?_, ?_⟩
  · intro i h1 h2
    interval_cases i
    exact ⟨_, rfl, by decide⟩
  · intro i h1 h2
    interval_cases i
    decide
  · intro i h1 h2
    interval_cases i
    decide

/-- A3 (no dip), A12 (a dip and no rise) and A11 (a last cell equal to `avg`). -/
def cellsA3 : List Int := [-8, 8, 8, 8, 8, 8, 8, 8, 8]
def cellsA12 : List Int := [8, 8, 8, 8, 8, 8, 8, 8, -8]
def cellsA11 : List Int := [-8, 8, 8, 8, 8, 8, 8, 8, 0]

/-- ExhaustedScanAnswersTheHorizon on A3: phase 1 runs to the limit, the last cell is above `avg`. -/
theorem witness_exhausted_A3 :
    (blockA cellsA3).err = none ∧ (blockA cellsA3).timing = some timingA ∧ (blockA cellsA3).halfWindow ≤ 32768 ∧
    RangeHolds (blockA cellsA3) timingA 0 9 (valueAt cellsA3) 8 (-8) ∧
    ScanStops (fun p => 8 * valueAt cellsA3 p ≤ 3 * 8 + 5 * -8) (0 + timingA.t34.toNat) 9 9 ∧
    (∀ k, 9 ≤ k → k < 9 → 8 * valueAt cellsA3 k < 5 * 8 + 3 * -8) ∧ 2 * valueAt cellsA3 (9 - 1) ≠ 8 + -8 := by
  refine ⟨rfl, rfl, by decide, ⟨by decide, by decide, ?_, ⟨1, by decide⟩, ⟨0, by decide⟩, ?_, ?_⟩,
    ⟨by decide, by decide, ?_, by decide⟩, fun k h1 h2 => by omega, by decide⟩
  · intro i _ h
    interval_cases i <;> exact ⟨_, rfl, by decide⟩
  · intro i _ h
    interval_cases i <;> decide
  · intro i _ h
    interval_cases i <;> decide
  · intro k h1 h2
    have h1 : 2 ≤ k := h1
    interval_cases k <;> decide

/-- ExhaustedScanAnswersTheHorizon on A12: phase 1 stops at 8, no cell from there on is at or above `high`. -/
theorem witness_exhausted_A12 :
    RangeHolds (blockA cellsA12) timingA 0 9 (valueAt cellsA12) 8 (-8) ∧
    ScanStops (fun p => 8 * valueAt cellsA12 p ≤ 3 * 8 + 5 * -8) (0 + timingA.t34.toNat) 9 8 ∧
    (∀ k, 8 ≤ k → k < 9 → 8 * valueAt cellsA12 k < 5 * 8 + 3 * -8) ∧ 2 * valueAt cellsA12 (9 - 1) ≠ 8 + -8 := by
  refine ⟨⟨by decide, by decide, ?_, ⟨0, by decide⟩, ⟨8, by decide⟩, ?_, ?_⟩,
    ⟨by decide, by decide, ?_, by decide⟩, ?_, by decide⟩
  · intro i _ h
    interval_cases i <;> exact ⟨_, rfl, by decide⟩
  · intro i _ h
    interval_cases i <;> decide
  · intro i _ h
    interval_cases i <;> decide
  · intro k h1 h2
    have h1 : 2 ≤ k := h1
    interval_cases k <;> decide
  · intro k h1 h2
    interval_cases k
    decide

/-- ExhaustedScanAnswersTheHorizon on A11: the last cell equals `avg`, so its second clause, the walk, speaks. -/
theorem witness_exhausted_A11 :
    RangeHolds (blockA cellsA11) timingA 0 9 (valueAt cellsA11) 8 (-8) ∧
    ScanStops (fun p => 8 * valueAt cellsA11 p ≤ 3 * 8 + 5 * -8) (0 + timingA.t34.toNat) 9 9 ∧
    2 * valueAt cellsA11 (9 - 1) = 8 + -8 := by
  refine ⟨⟨by decide, by decide, ?_, ⟨1, by decide⟩, ⟨0, by decide⟩, ?_, ?_⟩,
    ⟨by decide, by decide, ?_, by decide⟩, by decide⟩
  · intro i _ h
    interval_cases i <;> exact ⟨_, rfl, by decide⟩
  · intro i _ h
    interval_cases i <;> decide
  · intro i _ h
    interval_cases i <;> decide
  · intro k h1 h2
    have h1 : 2 ≤ k := h1
    interval_cases k <;> decide

/-- FlatRangeAnswersItsStartOffset: A4 from position 3; from 13, the last start whose offset lies in the range; and from
14, the first whose offset does not. -/
theorem witness_flat :
    (RangeHolds (blockA (List.replicate 16 5)) timingA 3 12 (fun _ => 5) 5 5 ∧ 3 + timingA.t34.toNat < 12) ∧
    (RangeHolds (blockA (List.replicate 16 5)) timingA 13 16 (fun _ => 5) 5 5 ∧ 13 + timingA.t34.toNat < 16) ∧
    (RangeHolds (blockA (List.replicate 16 5)) timingA 14 16 (fun _ => 5) 5 5 ∧ 16 ≤ 14 + timingA.t34.toNat) := by
  refine ⟨⟨⟨by decide, by decide, ?_, ⟨3, by decide⟩, ⟨3, by decide⟩, fun _ _ _ => le_refl _, fun _ _ _ => le_refl _⟩,
    by decide⟩,
    ⟨⟨by decide, by decide, ?_, ⟨13, by decide⟩, ⟨13, by decide⟩, fun _ _ _ => le_refl _, fun _ _ _ => le_refl _⟩,
    by decide⟩,
    ⟨⟨by decide, by decide, ?_, ⟨14, by decide⟩, ⟨14, by decide⟩, fun _ _ _ => le_refl _, fun _ _ _ => le_refl _⟩,
    by decide⟩⟩ <;>
  · intro i h1 h2
    interval_cases i <;> exact ⟨_, rfl, by decide⟩

/-- ShortRangeAnswersTheLastCell: A14, the first start position whose offset reaches the end of the window, and the last
position, L - 1. -/
theorem witness_short :
    TimingOrdered timingA ∧
    (RangeHolds (blockA (List.replicate 15 1 ++ [2])) timingA 14 16 (valueAt (List.replicate 15 1 ++ [2])) 2 1 ∧
      16 ≤ 14 + timingA.t34.toNat) ∧
    RangeHolds (blockA cellsA1) timingA 15 16 (valueAt cellsA1) 8 8 ∧
    15 + 1 = 2 * (blockA cellsA1).halfWindow := by
  refine ⟨by unfold TimingOrdered; decide,
    ⟨⟨by decide, by decide, ?_, ⟨15, by decide⟩, ⟨14, by decide⟩, ?_, ?_⟩, by decide⟩,
    witness_boundary_last, by decide⟩
  · intro i h1 h2
    interval_cases i <;> exact ⟨_, rfl, by decide⟩
  · intro i h1 h2
    interval_cases i <;> decide
  · intro i h1 h2
    interval_cases i <;> decide

/-- ThresholdsAreOrdered, BoundaryIgnoresOffsetAndGain: A1 and its scaled and offset form A2 (rule R87). -/
theorem witness_thresholds :
    thresholds (cellsA1.take 9) = some (thresholdsOf 8 (-8)) ∧ (0 : Int) < 3 ∧
    thresholds ((cellsA1.take 9).map (fun c => 3 * c + 116)) = some (thresholdsOf 140 92) ∧
    (thresholdsOf 140 92).avg2 = 232 ∧ (thresholdsOf 140 92).high8 = 976 ∧ (thresholdsOf 140 92).low8 = 880 := by
  decide

/-- SearchReadsOnlyItsFootprint: a window that differs from A1 outside the range [0, 9) only. -/
theorem witness_footprint :
    (blockA cellsA1).timing = some timingA ∧
    (∀ i, 0 ≤ i → i < min (0 + timingA.t94.toNat) (2 * (blockA cellsA1).halfWindow) →
      Memory.read i (windowOf (cellsA1.take 9)) = Memory.read i (blockA cellsA1).win) ∧
    (∃ t, exec (.nextb 0) (blockA cellsA1) = .next t) ∧ ∃ t, exec (.judge 0 4 true) (blockA cellsA1) = .next t := by
  refine ⟨rfl, ?_, next_of_completes (by decide), next_of_completes (by decide)⟩
  intro i _ h
  have h : i < 9 := h
  interval_cases i <;> rfl

/-- IshfComparesWithT54, IshfHasExactlyOneThreshold: the two sides of T54 = 24, a negative difference, no configuration. -/
theorem witness_ishf :
    (State.reset.err = none ∧ State.reset.timing = none) ∧
    (block44100.err = none ∧ block44100.timing = some timing44100) ∧
    (124 : Int) - 100 ≤ timing44100.t54.toNat ∧ (timing44100.t54.toNat : Int) < 125 - 100 ∧
    (0 : Int) - 65535 ≤ timing44100.t54.toNat := by decide

/-- JudgeErrorsInOrder: `pos1 + T54` at L and at L - 1, and an empty cell in the range. -/
theorem witness_judge_errors :
    State.reset.timing = none ∧ (blockA []).err = none ∧ (blockA []).timing = some timingA ∧
    2 * (blockA []).halfWindow ≤ 11 + timingA.t54.toNat ∧ 10 + timingA.t54.toNat < 2 * (blockA []).halfWindow ∧
    ∃ i, 10 ≤ i ∧ i < min (10 + timingA.t94.toNat) (2 * (blockA []).halfWindow) ∧ CellEmpty (blockA []) i :=
  ⟨rfl, rfl, rfl, by decide, by decide, 10, by decide, by decide, rfl⟩

/-- JudgeAnswersItsFunction: A1 from position 0 with either JUDGE_FN (its range is `witness_boundary`'s). -/
theorem witness_judge :
    (blockA cellsA1).err = none ∧ (blockA cellsA1).timing = some timingA ∧ TimingOrdered timingA ∧
    0 + timingA.t54.toNat < 2 * (blockA cellsA1).halfWindow ∧
    RangeHolds (blockA cellsA1) timingA 0 9 (valueAt cellsA1) 8 (-8) ∧
    (blockA cellsA1).judgeFn = .judgeDefault ∧ ({ blockA cellsA1 with judgeFn := .free } : State).judgeFn = .free ∧
    RangeHolds { blockA cellsA1 with judgeFn := .free } timingA 0 9 (valueAt cellsA1) 8 (-8) :=
  ⟨rfl, rfl, by unfold TimingOrdered; decide, by decide, witness_boundary.2.2.2.1, rfl, rfl,
    witness_boundary.2.2.2.1⟩

/-- JudgeDefaultIsTheWorseDistance: the four regions between -8 and 8, each at its upper end. -/
theorem witness_regions :
    RegionIs 8 (-8) (-2) 0 ∧ RegionIs 8 (-8) (-1) 1 ∧ RegionIs 8 (-8) 1 2 ∧ RegionIs 8 (-8) 2 3 := by
  refine ⟨.inl (by decide), .inr (.inl (by decide)), .inr (.inr (.inl (by decide))), .inr (.inr (.inr (by decide)))⟩

/-- WorstAnswersTheLargerLevel: on an unconfigured and on a configured running block. -/
theorem witness_worst : State.reset.err = none ∧ block44100.err = none := by decide

/-- CommandsStopOnlyOnUnorderedTiming: with T94 = 0, which no CONFIG gives, NEXTB has no cell to take extremes of. -/
theorem witness_fault :
    exec (.nextb 0) { State.reset with timing := some { timingA with t94 := 0 } } = .fault .timingOrder := rfl

/-- EveryStepKeepsTheWindowLegal: a legal window with a cell at L - 1 and a sample of +1.0, and a WSAMP to take. -/
theorem witness_window_legal :
    WindowLegal (queued { State.reset with win := [(0, 0x800000), (1023, 0x1C00000)] } 0x3000000701800000) ∧
    ∃ t, step (queued { State.reset with win := [(0, 0x800000), (1023, 0x1C00000)] } 0x3000000701800000) =
      .next t := by
  refine ⟨⟨by decide, ?_⟩, next_of_completes (by decide)⟩
  decide

/-- EveryStepKeepsTheAnswersLegal: a block that has given the answers OK 49 and ERR_HALTED. -/
theorem witness_answers_legal :
    AnswersLegal (queued { haltedBy .locked block44100 with
      responses := [0x31, 0xF000000000000000], resp := 0xF000000000000000 } 0) ∧
    ∃ t, step (queued { haltedBy .locked block44100 with
      responses := [0x31, 0xF000000000000000], resp := 0xF000000000000000 } 0) = .next t := by
  refine ⟨⟨fun w h => ?_, rfl⟩, next_of_completes (by decide)⟩
  rcases List.mem_cons.mp h with rfl | h
  · exact ⟨by decide, by decide, by decide⟩
  · rcases List.mem_cons.mp h with rfl | h
    · exact ⟨by decide, by decide, by decide⟩
    · cases h

/-- RunIsCleanWhileNotHalted: a running block that has answered OK, and a word that is not SRST. -/
theorem witness_clean :
    CleanWhileRunning (queued { block44100 with responses := [0] } 0) ∧
    (∀ rest, (queued { block44100 with responses := [0] } 0).commands ≠ 0x8000000000000000 :: rest) ∧
    ∃ t, step (queued { block44100 with responses := [0] } 0) = .next t := by
  refine ⟨⟨fun _ w h => ?_, fun _ => rfl⟩, fun rest h => ?_, next_of_completes (by decide)⟩
  · rcases List.mem_cons.mp h with rfl | h
    · decide
    · cases h
  · exact absurd (List.cons.inj h).1 (by decide)

end Sys2Proof.Tests
end

section
/-! The state (10_state.md): what reset leaves, the STATUS word, the frame of every command, when a command stops, and
the invariants of the timing registers and of the answers. -/

namespace Sys2Proof.Machine

open Sys2Proof

/-! ### One step as one command -/

/-- An illegal word is answered as RDREG of a reserved register is (60_exceptions.md R122, 40_timing_generator.md R73). -/
theorem illegalWord_eq_exec (s : State) : illegalWord s = exec (.rdreg 7) s := rfl

/-- A step with a word to take performs one well-formed command on the state in which the word is taken. -/
theorem step_eq_exec {s : State} {w : Word} {rest : List Word} (h : s.commands = w :: rest) :
    ∃ i : Instr, i.wellFormed = true ∧ step s = exec i { s with commands := rest } := by
  rw [step_cons h]
  cases hd : decode w with
  | ok i => exact ⟨i, decode_wellFormed hd, rfl⟩
  | error r => exact ⟨.rdreg 7, by decide, illegalWord_eq_exec _⟩

/-- What every well-formed command keeps, and does not depend on the words to come, every step keeps. -/
theorem step_keeps {P : State → Prop} (hcmd : ∀ s rest, P s → P { s with commands := rest })
    (hexec : ∀ i s t, i.wellFormed = true → P s → ExecEffect i s t → P t)
    {s t : State} (hs : P s) (h : step s = .next t) : P t := by
  cases hc : s.commands with
  | nil =>
    rw [step_nil hc] at h
    cases h
    exact hs
  | cons w rest =>
    obtain ⟨i, hi, he⟩ := step_eq_exec hc
    exact hexec i _ t hi (hcmd s rest hs) (exec_next (he ▸ h))

/-! ### The frame of a command -/

namespace ExecEffect

variable {i : Instr} {s t : State}

theorem halfWindow_eq (h : ExecEffect i s t) : t.halfWindow = s.halfWindow := by
  cases h <;> rfl

theorem judgeFn_eq (h : ExecEffect i s t) : t.judgeFn = s.judgeFn := by
  cases h <;> rfl

theorem commands_eq (h : ExecEffect i s t) : t.commands = s.commands := by
  cases h <;> rfl

/-- One answer is given to the host, and REG.RESP holds it (10_state.md R21). -/
theorem responses_eq (h : ExecEffect i s t) : t.responses = s.responses ++ [t.resp] := by
  cases h <;> rfl

/-- The timing registers change by CONFIG answered OK only, but for SRST (10_state.md R18). -/
theorem timing_eq_or_configured (h : ExecEffect i s t) (hi : i ≠ .srst) :
    t.timing = s.timing ∨ (∃ sr lf, i = .config sr lf) ∧ s.timing = none ∧ responseCode t.resp = 0 := by
  cases h with
  | configured sr lf hi' he hc hsr hlf => exact .inr ⟨⟨sr, lf, hi'⟩, hc, by simp⟩
  | reset hi' => exact absurd hi' hi
  | _ => exact .inl rfl

/-- STATUS.ERR changes by an error only, but for SRST (10_state.md R19, 60_exceptions.md R121). -/
theorem err_eq_or_raised (h : ExecEffect i s t) (hi : i ≠ .srst) :
    t.err = s.err ∨ ∃ e, responseCode t.resp = (errorNumber e).toNat := by
  cases h with
  | raised e he => exact .inr ⟨e, by simp⟩
  | reset hi' => exact absurd hi' hi
  | _ => exact .inl rfl

/-- Every answer is a word 30_encoding.md R53 allows: a value only with code OK, else one of the codes. -/
theorem resp_legal (h : ExecEffect i s t) : ResponseLegal t.resp := by
  have hok (v : BitVec 32) : ResponseLegal (responseWord 0 v) :=
    responseLegal_responseWord (.inl (by decide)) fun h => absurd rfl h
  cases h with
  | refused he => exact responseLegal_responseWord (.inr rfl) fun _ => rfl
  | raised e he => exact responseLegal_responseWord (.inl (errorNumber_range e).2) fun _ => rfl
  | _ => exact hok _

end ExecEffect

/-! ### The timing registers -/

/-- The registers CONFIG derives from operands that fit their fields hold the exact quotients: none of the
divisions overflows its register (10_state.md R13 to R17). -/
theorem timingOf_toNat {sr lf : Nat} (hsr : sr < 2 ^ 24) (hlf : lf < 2 ^ 32) :
    (timingOf sr lf).sampleRate.toNat = sr ∧ (timingOf sr lf).lowFreq.toNat = lf ∧
    (timingOf sr lf).t34.toNat = 11 * sr / lf ∧ (timingOf sr lf).t54.toNat = 21 * sr / lf ∧
    (timingOf sr lf).t94.toNat = 33 * sr / lf + 1 := by
  have h34 := Nat.div_le_self (11 * sr) lf
  have h54 := Nat.div_le_self (21 * sr) lf
  have h94 := Nat.div_le_self (33 * sr) lf
  exact ⟨Nat.mod_eq_of_lt hsr, Nat.mod_eq_of_lt hlf,
    Nat.mod_eq_of_lt (show 11 * sr / lf < 2 ^ 32 by omega),
    Nat.mod_eq_of_lt (show 21 * sr / lf < 2 ^ 32 by omega),
    Nat.mod_eq_of_lt (show 33 * sr / lf + 1 < 2 ^ 32 by omega)⟩

/-- `T34 <= T54 < T94`: the three quotients have one divisor and rising numerators (10_state.md R18). -/
theorem TimingLegal.ordered {s : State} {r : Timing} (hs : TimingLegal s) (hr : s.timing = some r) :
    TimingOrdered r := by
  obtain ⟨-, -, h34, h54, h94⟩ := hs r hr
  refine ⟨?_, ?_⟩
  · rw [h34, h54]
    exact Nat.div_le_div_right (by omega)
  · rw [h54, h94]
    exact Nat.lt_succ_of_le (Nat.div_le_div_right (by omega))

/-- A well-formed command keeps the timing registers exact: it leaves them, clears them, or CONFIG writes them. -/
theorem ExecEffect.timingLegal {i : Instr} {s t : State} (h : ExecEffect i s t) (hi : i.wellFormed = true)
    (hs : TimingLegal s) : TimingLegal t := by
  cases h with
  | configured sr lf hi' he hc hsr hlf =>
    subst hi'
    obtain ⟨hsr', hlf'⟩ : sr < 2 ^ 24 ∧ lf < 2 ^ 32 := by
      simpa [Instr.wellFormed, fitsUnsigned] using hi
    obtain ⟨h1, h2, h34, h54, h94⟩ := timingOf_toNat hsr' hlf'
    intro r hr
    cases hr
    rw [h34, h54, h94, h1, h2]
    exact ⟨Nat.pos_of_ne_zero hsr, Nat.pos_of_ne_zero hlf, rfl, rfl, rfl⟩
  | reset hi' => exact fun r hr => by cases hr
  | _ => exact hs

/-- CONFIG on a configured running block raises ERR_LOCKED, whatever its operands (40_timing_generator.md R70). -/
theorem execConfig_locked {s : State} {r : Timing} (sr lf : Nat) (he : s.err = none) (hr : s.timing = some r) :
    exec (.config sr lf) s = .next (raise .locked s) := by
  simp [exec, execConfig, unlessHalted_running he, cfgValid, hr]

/-! ### The answers -/

/-- A command that gives the host one legal answer and latches it keeps all answers legal. -/
theorem ExecEffect.answersLegal {i : Instr} {s t : State} (h : ExecEffect i s t) (hs : AnswersLegal s) :
    AnswersLegal t := by
  obtain ⟨hall, -⟩ := hs
  refine ⟨fun w hw => ?_, by simp [h.responses_eq]⟩
  rw [h.responses_eq, List.mem_append, List.mem_singleton] at hw
  rcases hw with hw | rfl
  · exact hall w hw
  · exact h.resp_legal

/-! ### STATUS -/

theorem statusWord_toNat (s : State) :
    (statusWord s).toNat = 16 * (errField s).toNat + (if s.timing.isSome then 1 else 0) := by
  simp only [statusWord, toNat_append_eq, BitVec.toNat_ofBool, cfgValid]
  cases s.timing <;> simp <;> omega

theorem errField_of_none {s : State} (h : s.err = none) : errField s = 0 := by
  simp [errField, h]

theorem errField_of_some {s : State} {c : ErrorCode} (h : s.err = some c) : errField s = errorNumber c := by
  simp [errField, h]

/-! ### When a command stops -/

/-- A result of a command in state `s`: a next state, or the fault on timing registers out of order. -/
def CompletesIfOrdered (s : State) (r : Result) : Prop :=
  (∃ t, r = .next t) ∨ r = .fault .timingOrder ∧ ∃ t, s.timing = some t ∧ ¬ TimingOrdered t

theorem completesIfOrdered_next (s t : State) : CompletesIfOrdered s (.next t) := .inl ⟨t, rfl⟩

theorem completesIfOrdered_unlessHalted {s : State} {r : Result} (h : CompletesIfOrdered s r) :
    CompletesIfOrdered s (unlessHalted s r) := by
  by_cases he : s.err = none
  · rwa [unlessHalted_running he]
  · rw [unlessHalted_halted he]
    exact completesIfOrdered_next s _

/-- A search range that was read has as many values as it has cells (42_boundary_search.md R85). -/
theorem readRange_length {s : State} {t : Timing} {pos : Nat} {cells : List Int}
    (h : readRange s t pos = .ok cells) : cells.length = searchLimit s t pos - pos :=
  (readCells_eq_ok.mp h).1

theorem thresholds_isSome {cells : List Int} (h : 0 < cells.length) : ∃ th, thresholds cells = some th := by
  cases cells with
  | nil => cases h
  | cons c cs => exact ⟨_, rfl⟩

/-- A position `d` past the start of a range that was read has its value. -/
theorem sampleAt_isSome {cells : List Int} {start d : Nat} (h : d < cells.length) :
    ∃ c, sampleAt cells start (start + d) = some c :=
  ⟨cells[d], by simp [sampleAt, h]⟩

/-- NEXTB completes on ordered timing registers: the range has the cell `pos`, since `T94 > 0`. -/
theorem execNextb_completesIfOrdered (pos : Nat) (s : State) : CompletesIfOrdered s (execNextb pos s) := by
  apply completesIfOrdered_unlessHalted
  cases ht : s.timing with
  | none => exact completesIfOrdered_next s _
  | some t =>
    dsimp only
    split
    · exact completesIfOrdered_next s _
    · rename_i hpos
      cases hc : readRange s t pos with
      | error e => exact completesIfOrdered_next s _
      | ok cells =>
        dsimp only
        by_cases ho : TimingOrdered t
        · have hlen : 0 < cells.length := by
            have := ho.2
            rw [readRange_length hc, searchLimit]
            omega
          obtain ⟨th, hth⟩ := thresholds_isSome hlen
          rw [hth]
          exact completesIfOrdered_next s _
        · cases thresholds cells with
          | none => exact .inr ⟨rfl, t, ht, ho⟩
          | some th => exact completesIfOrdered_next s _

/-- JUDGE completes on ordered timing registers: both sampling points lie in the range, since `T34 <= T54 < T94`
and `pos1 + T54 < L`. -/
theorem execJudge_completesIfOrdered (pos1 pos2 : Nat) (hint : Bool) (s : State) :
    CompletesIfOrdered s (execJudge pos1 pos2 hint s) := by
  apply completesIfOrdered_unlessHalted
  cases ht : s.timing with
  | none => exact completesIfOrdered_next s _
  | some t =>
    dsimp only
    split
    · exact completesIfOrdered_next s _
    · rename_i hpos
      cases hc : readRange s t pos1 with
      | error e => exact completesIfOrdered_next s _
      | ok cells =>
        dsimp only
        by_cases ho : TimingOrdered t
        · obtain ⟨h34, h54⟩ := ho
          have hlen : t.t54.toNat < cells.length := by
            rw [readRange_length hc, searchLimit]
            omega
          obtain ⟨th, hth⟩ := thresholds_isSome (Nat.zero_lt_of_lt hlen)
          obtain ⟨c34, hc34⟩ := sampleAt_isSome (start := pos1) (Nat.lt_of_le_of_lt h34 hlen)
          obtain ⟨c54, hc54⟩ := sampleAt_isSome (start := pos1) hlen
          rw [hth, hc34, hc54]
          exact completesIfOrdered_next s _
        · split
          · exact completesIfOrdered_next s _
          · exact .inr ⟨rfl, t, ht, ho⟩

theorem unlessHalted_completes {s : State} {r : Result} (h : ∃ t, r = .next t) :
    ∃ t, unlessHalted s r = .next t := by
  by_cases he : s.err = none
  · rwa [unlessHalted_running he]
  · exact ⟨_, unlessHalted_halted he r⟩

/-- A register read answers its value or raises its error. -/
theorem execRdreg_completes (reg : Nat) (s : State) : ∃ t, execRdreg reg s = .next t := by
  unfold execRdreg
  split_ifs
  · cases registerValue s reg <;> exact ⟨_, rfl⟩
  · apply unlessHalted_completes
    cases registerValue s reg <;> exact ⟨_, rfl⟩

theorem execIshf_completes (pos1 pos2 : Nat) (s : State) : ∃ t, execIshf pos1 pos2 s = .next t := by
  apply unlessHalted_completes
  cases s.timing <;> exact ⟨_, rfl⟩

/-- The commands that search no range complete in every state. -/
theorem exec_completes_or_searches (i : Instr) (s : State) :
    (∃ t, exec i s = .next t) ∨ (∃ pos, i = .nextb pos) ∨ ∃ pos1 pos2 hint, i = .judge pos1 pos2 hint := by
  cases i with
  | config sr lf => exact .inl (unlessHalted_completes (by split_ifs <;> exact ⟨_, rfl⟩))
  | rdreg reg => exact .inl (execRdreg_completes reg s)
  | wsamp idx val => exact .inl (unlessHalted_completes (by split_ifs <;> exact ⟨_, rfl⟩))
  | nextb pos => exact .inr (.inl ⟨pos, rfl⟩)
  | ishf pos1 pos2 => exact .inl (execIshf_completes pos1 pos2 s)
  | judge pos1 pos2 hint => exact .inr (.inr ⟨pos1, pos2, hint, rfl⟩)
  | worst a b => exact .inl (unlessHalted_completes ⟨_, rfl⟩)
  | srst => exact .inl ⟨_, rfl⟩

/-- Every command answers a next state, or faults on timing registers out of order. -/
theorem exec_completesIfOrdered (i : Instr) (s : State) : CompletesIfOrdered s (exec i s) := by
  rcases exec_completes_or_searches i s with h | ⟨pos, rfl⟩ | ⟨pos1, pos2, hint, rfl⟩
  · exact .inl h
  · exact execNextb_completesIfOrdered pos s
  · exact execJudge_completesIfOrdered pos1 pos2 hint s

/-! ### The obligations -/

/-- Settles O51: CONFIG alone writes the registers, from operands the decoder has bounded. -/
theorem everyStepKeepsTheTimingExact : Obligations.EveryStepKeepsTheTimingExact := by
  intro s t
  exact step_keeps (P := TimingLegal) (fun _ _ hs => hs) fun _ _ _ hi hs he => he.timingLegal hi hs

/-- Settles O52: every command gives the host one legal answer and latches it. -/
theorem everyStepKeepsTheAnswersLegal : Obligations.EveryStepKeepsTheAnswersLegal := by
  intro s t
  exact step_keeps (P := AnswersLegal) (fun _ _ hs => hs) fun _ _ _ _ hs he => he.answersLegal hs

/-- Settles O16: the step is one command, and a command answers once. -/
theorem everyWordIsAnsweredOnce : Obligations.EveryWordIsAnsweredOnce := by
  intro s t w rest hc h
  obtain ⟨i, -, he⟩ := step_eq_exec hc
  have heff := exec_next (he ▸ h)
  exact ⟨heff.commands_eq, heff.responses_eq⟩

/-- Settles O19: ERR is 0 without an error, else the error's code, which is 1 to 7. -/
theorem statusWordLayout : Obligations.StatusWordLayout := by
  intro s
  refine ⟨(errField s).toNat, ?_⟩
  cases he : s.err with
  | none =>
    refine ⟨?_, statusWord_toNat s, ?_⟩ <;> simp [errField_of_none he, halted, he]
  | some c =>
    obtain ⟨h1, h7⟩ := errorNumber_range c
    have hne : (errorNumber c).toNat ≠ 0 := by omega
    rw [statusWord_toNat, errField_of_some he]
    exact ⟨h7, rfl, by simp [hne], fun c' hc => by cases hc; rfl, by simp [halted, he, hne]⟩

/-- Settles O22: the order of the quotients, ERR_LOCKED before anything else, and the frame of a command. -/
theorem timingIsOrderedAndImmutable : Obligations.TimingIsOrderedAndImmutable := by
  refine ⟨fun s r => TimingLegal.ordered, fun s r sr lf he hr => ?_, fun i s t r hr h hi => ?_⟩
  · rw [execConfig_locked sr lf he hr, raise_eq]
    rfl
  · rcases (exec_next h).timing_eq_or_configured hi with ht | ⟨-, hn, -⟩
    · rw [ht, hr]
    · rw [hr] at hn
      cases hn

/-- Settles O45, from the frame of each of a command's effects. -/
theorem registerFrameOfEveryCommand : Obligations.RegisterFrameOfEveryCommand := by
  intro i s t h
  have heff := exec_next h
  refine ⟨heff.halfWindow_eq, heff.judgeFn_eq, heff.commands_eq, heff.responses_eq,
    fun hi hnc => ?_, fun hi hcode => ?_, fun hi hcode => ?_⟩
  · rcases heff.timing_eq_or_configured hi with ht | ⟨⟨sr, lf, hc⟩, -⟩
    · exact ht
    · exact absurd hc (hnc sr lf)
  · rcases heff.timing_eq_or_configured hi with ht | ⟨-, -, h0⟩
    · exact ht
    · exact absurd h0 hcode
  · rcases heff.err_eq_or_raised hi with ht | ⟨e, he⟩
    · exact ht
    · obtain ⟨h1, h7⟩ := errorNumber_range e
      omega

/-- Settles O48: a command without a search completes, and a search stops only on unordered registers. -/
theorem commandsStopOnlyOnUnorderedTiming : Obligations.CommandsStopOnlyOnUnorderedTiming := by
  intro i s
  refine ⟨fun q hq => ?_, fun f hf => ⟨?_, ?_⟩⟩
  · rcases exec_completesIfOrdered i s with ⟨t, h⟩ | ⟨h, -⟩
    · rw [h] at hq
      cases hq
    · rw [h] at hq
      cases hq
  · rcases exec_completes_or_searches i s with ⟨t, h⟩ | h
    · rw [h] at hf
      cases hf
    · exact h
  · rcases exec_completesIfOrdered i s with ⟨t, h⟩ | ⟨-, h⟩
    · rw [h] at hf
      cases hf
    · exact h

/-- Settles O17: the reset state, the RST input and SRST all set the fields 10_state.md R27 lists. -/
theorem resetLeavesTheSpecValues : Obligations.ResetLeavesTheSpecValues :=
  ⟨⟨rfl, rfl, rfl, rfl, rfl, fun _ => rfl⟩, fun _ => ⟨rfl, rfl, rfl, rfl, rfl, fun _ => rfl⟩, fun _ => rfl⟩

/-- Settles O49: at reset no register, no cell and no answer is there to be illegal. -/
theorem resetMeetsTheInvariants : Obligations.ResetMeetsTheInvariants := by
  refine ⟨⟨by decide, by decide⟩, ⟨State.reset_wf, ?_⟩, ?_, ⟨?_, rfl⟩, ?_⟩
  · exact fun c hc => absurd hc List.not_mem_nil
  · exact fun r hr => by cases hr
  · exact fun w hw => absurd hw List.not_mem_nil
  · exact ⟨fun _ w hw => absurd hw List.not_mem_nil, fun _ => rfl⟩

end Sys2Proof.Machine
end

section
/-! The window memory (20_memory.md): read and write of one cell, the byte-wide channel, which commands read and
change the window, and the window's invariant. -/

namespace Sys2Proof.Machine

open Sys2Proof

/-! ### The byte-wide channel -/

/-- Byte `k` of a run of bytes of a word is its `8*k` bits further up (20_memory.md R39). -/
theorem wordBytesFrom_getElem? (w : Word) (i : Nat) {k n : Nat} (h : k < n) :
    (wordBytesFrom w i n)[k]? = some (w.extractLsb' (8 * (i + k)) 8) := by
  induction n generalizing i k with
  | zero => cases h
  | succ n ih =>
    cases k with
    | zero => rfl
    | succ k =>
      have hk : (wordBytesFrom w (i + 1) n)[k]? = some (w.extractLsb' (8 * (i + 1 + k)) 8) :=
        ih (i + 1) (Nat.lt_of_succ_lt_succ h)
      rw [wordBytesFrom, List.getElem?_cons_succ, hk, Nat.add_right_comm, Nat.add_assoc]

/-- The eight bytes of a word, the last of them first, are the word. -/
theorem append_bytes_eq (w : Word) :
    w.extractLsb' 56 8 ++ w.extractLsb' 48 8 ++ w.extractLsb' 40 8 ++ w.extractLsb' 32 8 ++
      w.extractLsb' 24 8 ++ w.extractLsb' 16 8 ++ w.extractLsb' 8 8 ++ w.extractLsb' 0 8 = w := by
  apply BitVec.eq_of_toNat_eq
  have := w.isLt
  simp only [toNat_append_eq, BitVec.extractLsb'_toNat, Nat.shiftRight_eq_div_pow]
  omega

/-- The channel gives back the word whose bytes come next, and what follows them. -/
theorem takeWord_wordBytes_append (w : Word) (rest : List Byte) :
    takeWord (wordBytes w ++ rest) = some (w, rest) :=
  congrArg (fun v => some (v, rest)) (append_bytes_eq w)

theorem takeWord_of_length_lt {bs : List Byte} (h : bs.length < 8) : takeWord bs = none := by
  unfold takeWord
  split
  · simp only [List.length_cons] at h
    omega
  · rfl

theorem decodeBytes_of_ok {bs rest : List Byte} {w : Word} {i : Instr} (h : takeWord bs = some (w, rest))
    (hd : decode w = .ok i) : decodeBytes bs = .ok (i, rest) := by
  simp only [decodeBytes, h, hd]

theorem decodeBytes_of_error {bs rest : List Byte} {w : Word} {r : Reject} (h : takeWord bs = some (w, rest))
    (hd : decode w = .error r) : decodeBytes bs = .error r := by
  simp only [decodeBytes, h, hd]

theorem decodeBytes_of_none {bs : List Byte} (h : takeWord bs = none) : decodeBytes bs = .error .truncated := by
  simp only [decodeBytes, h]

/-! ### One cell -/

/-- A legal sample value fits a cell (20_memory.md R32). -/
theorem toInt_ofInt_of_legal {v : Int} (hlo : -8388608 ≤ v) (hhi : v ≤ 8388608) :
    (BitVec.ofInt 25 v).toInt = v :=
  BitVec.toInt_ofInt_eq_self (by decide) (by omega) (by omega)

/-- The cell just written holds the value written (20_memory.md R37). -/
theorem cellHolds_memWrite (s : State) (i : Nat) {v : Int} (hlo : -8388608 ≤ v) (hhi : v ≤ 8388608) :
    CellHolds (memWrite i v s) i v :=
  ⟨_, Memory.read_write_same .., toInt_ofInt_of_legal hlo hhi⟩

/-! ### The window's frame and invariant -/

/-- The window changes by WSAMP answered OK only, at the cell it addresses, but for SRST. -/
theorem ExecEffect.win_eq_or_written {i : Instr} {s t : State} (h : ExecEffect i s t) (hi : i ≠ .srst) :
    t.win = s.win ∨ ∃ idx val, i = .wsamp idx val ∧ responseCode t.resp = 0 ∧
      t.win = Memory.write idx (BitVec.ofInt 25 val) s.win := by
  cases h with
  | written idx val hi' he hx hlo hhi => exact .inr ⟨idx, val, hi', by simp, rfl⟩
  | reset hi' => exact absurd hi' hi
  | _ => exact .inl rfl

/-- MemWrite of a legal value to a cell of the window keeps the window legal. -/
theorem WindowLegal.memWrite {s : State} {idx : Nat} {val : Int} (hs : WindowLegal s) (hx : idx < 2 * s.halfWindow)
    (hlo : -8388608 ≤ val) (hhi : val ≤ 8388608) : WindowLegal (memWrite idx val s) := by
  obtain ⟨hwf, hcells⟩ := hs
  refine ⟨Memory.write_wf idx _ hwf, fun c hc => ?_⟩
  rcases Memory.mem_write hc with rfl | hc
  · rw [toInt_ofInt_of_legal hlo hhi]
    exact ⟨hx, hlo, hhi⟩
  · exact hcells c hc

/-- A command keeps the window legal: it leaves it, clears it, or WSAMP writes one legal cell. -/
theorem ExecEffect.windowLegal {i : Instr} {s t : State} (h : ExecEffect i s t) (hs : WindowLegal s) :
    WindowLegal t := by
  cases h with
  | written idx val hi he hx hlo hhi => exact hs.memWrite hx hlo hhi
  | reset hi => exact ⟨List.Pairwise.nil, fun c hc => absurd hc List.not_mem_nil⟩
  | _ => exact hs

/-! ### What a command reads of the window

A command reads nothing of the window but a set of cells when replacing the window by one that agrees on them, before
the command or after it, comes to the same. -/

/-- The state with another window. -/
def withWin (win : Memory) (s : State) : State := { s with win := win }

/-- A result with another window in its next state. -/
def resultWithWin (win : Memory) : Result → Result
  | .next t => .next (withWin win t)
  | .fault r => .fault r
  | .refused r => .refused r

@[simp] theorem withWin_timing (win : Memory) (s : State) : (withWin win s).timing = s.timing := rfl
@[simp] theorem withWin_judgeFn (win : Memory) (s : State) : (withWin win s).judgeFn = s.judgeFn := rfl
@[simp] theorem cfgValid_withWin (win : Memory) (s : State) : cfgValid (withWin win s) = cfgValid s := rfl
@[simp] theorem windowLength_withWin (win : Memory) (s : State) :
    windowLength (withWin win s) = windowLength s := rfl
@[simp] theorem searchLimit_withWin (win : Memory) (s : State) (t : Timing) (start : Nat) :
    searchLimit (withWin win s) t start = searchLimit s t start := rfl

/-- The halted check reads no cell. -/
theorem unlessHalted_withWin {win : Memory} {s : State} {r r' : Result} (h : r' = resultWithWin win r) :
    unlessHalted (withWin win s) r' = resultWithWin win (unlessHalted s r) := by
  subst h
  by_cases he : s.err = none
  · rw [unlessHalted_running he, unlessHalted_running (s := withWin win s) he]
  · rw [unlessHalted_halted he, unlessHalted_halted (s := withWin win s) he]
    rfl

theorem execConfig_withWin (win : Memory) (sr lf : Nat) (s : State) :
    execConfig sr lf (withWin win s) = resultWithWin win (execConfig sr lf s) := by
  apply unlessHalted_withWin
  rw [cfgValid_withWin]
  split_ifs <;> rfl

theorem registerValue_withWin (win : Memory) (s : State) (reg : Nat) :
    registerValue (withWin win s) reg = registerValue s reg := by
  unfold registerValue
  split <;> rfl

theorem execRdreg_withWin (win : Memory) (reg : Nat) (s : State) :
    execRdreg reg (withWin win s) = resultWithWin win (execRdreg reg s) := by
  simp only [execRdreg, registerValue_withWin]
  split_ifs
  · cases registerValue s reg <;> rfl
  · apply unlessHalted_withWin
    cases registerValue s reg <;> rfl

theorem execIshf_withWin (win : Memory) (pos1 pos2 : Nat) (s : State) :
    execIshf pos1 pos2 (withWin win s) = resultWithWin win (execIshf pos1 pos2 s) := by
  apply unlessHalted_withWin
  rw [withWin_timing]
  cases s.timing <;> rfl

theorem execWorst_withWin (win : Memory) (a b : SignalJudge) (s : State) :
    execWorst a b (withWin win s) = resultWithWin win (execWorst a b s) :=
  unlessHalted_withWin rfl

/-- Every command but WSAMP, the two searches and SRST reads no cell (20_memory.md R38). -/
theorem exec_withWin (win : Memory) {i : Instr} (s : State) (hw : ∀ idx val, i ≠ .wsamp idx val)
    (hn : ∀ pos, i ≠ .nextb pos) (hj : ∀ p q h, i ≠ .judge p q h) (hs : i ≠ .srst) :
    exec i (withWin win s) = resultWithWin win (exec i s) := by
  cases i with
  | config sr lf => exact execConfig_withWin win sr lf s
  | rdreg reg => exact execRdreg_withWin win reg s
  | wsamp idx val => exact absurd rfl (hw idx val)
  | nextb pos => exact absurd rfl (hn pos)
  | ishf pos1 pos2 => exact execIshf_withWin win pos1 pos2 s
  | judge pos1 pos2 hint => exact absurd rfl (hj pos1 pos2 hint)
  | worst a b => exact execWorst_withWin win a b s
  | srst => exact absurd rfl hs

/-- Two windows agree on the footprint of a search from `pos` (20_memory.md R38, 42_boundary_search.md R85). -/
def AgreeOnFootprint (win : Memory) (s : State) (t : Timing) (pos : Nat) : Prop :=
  ∀ i, pos ≤ i → i < searchLimit s t pos → Memory.read i win = Memory.read i s.win

theorem readRange_withWin {win : Memory} {s : State} {t : Timing} {pos : Nat} (h : AgreeOnFootprint win s t pos) :
    readRange (withWin win s) t pos = readRange s t pos :=
  readCells_congr fun k hk => by
    rw [searchLimit_withWin] at hk
    exact h (pos + k) (by omega) (by omega)

theorem execNextb_withWin {win : Memory} {s : State} {t : Timing} {pos : Nat} (ht : s.timing = some t)
    (h : AgreeOnFootprint win s t pos) :
    execNextb pos (withWin win s) = resultWithWin win (execNextb pos s) := by
  apply unlessHalted_withWin
  simp only [withWin_timing, ht, windowLength_withWin, readRange_withWin h, searchLimit_withWin]
  split
  · rfl
  · cases readRange s t pos with
    | error e => rfl
    | ok cells =>
      dsimp only
      split <;> rfl

theorem execJudge_withWin {win : Memory} {s : State} {t : Timing} {pos1 : Nat} (pos2 : Nat) (hint : Bool)
    (ht : s.timing = some t) (h : AgreeOnFootprint win s t pos1) :
    execJudge pos1 pos2 hint (withWin win s) = resultWithWin win (execJudge pos1 pos2 hint s) := by
  apply unlessHalted_withWin
  simp only [withWin_timing, ht, windowLength_withWin, readRange_withWin h, withWin_judgeFn]
  split
  · rfl
  · cases readRange s t pos1 with
    | error e => rfl
    | ok cells =>
      dsimp only
      split <;> rfl

/-! ### The obligations -/

/-- Settles O50: WSAMP alone writes the window, one cell inside it with a legal sample. -/
theorem everyStepKeepsTheWindowLegal : Obligations.EveryStepKeepsTheWindowLegal := by
  intro s t
  exact step_keeps (P := WindowLegal) (fun _ _ hs => hs) fun _ _ _ _ hs he => he.windowLegal hs

/-- Settles O7: the bytes of a word are its 8-bit fields from bit 0 upward, and put together they are the word. -/
theorem byteChannelIsLittleEndian : Obligations.ByteChannelIsLittleEndian := by
  refine ⟨fun w k hk => ?_, fun w i rest => decodeBytes_of_ok (takeWord_wordBytes_append w rest),
    fun w r rest => decodeBytes_of_error (takeWord_wordBytes_append w rest),
    fun bs hbs => decodeBytes_of_none (takeWord_of_length_lt hbs)⟩
  rw [wordBytes, wordBytesFrom_getElem? w 0 hk, Nat.zero_add, BitVec.extractLsb', Nat.shiftRight_eq_div_pow]

/-- Settles O26, from the reads of the cell just written and of the others. -/
theorem memWriteChangesOneCell : Obligations.MemWriteChangesOneCell := by
  intro s i v hlo hhi
  have hcell := cellHolds_memWrite s i hlo hhi
  exact ⟨hcell, memRead_eq_ok.mpr hcell, fun k hk => Memory.read_write_other _ _ hk, rfl⟩

/-- Settles O36: a range read of either window gives the same values, and no more of it is read. -/
theorem searchReadsOnlyItsFootprint : Obligations.SearchReadsOnlyItsFootprint := by
  intro s t r win pos pos2 hint ht hagree
  exact ⟨fun h => (execNextb_withWin ht hagree).trans (congrArg (resultWithWin win) h),
    fun h => (execJudge_withWin pos2 hint ht hagree).trans (congrArg (resultWithWin win) h)⟩

/-- Settles O37: four of the commands do not look at the window, and SRST clears it unread. -/
theorem otherCommandsReadNoCell : Obligations.OtherCommandsReadNoCell := by
  intro i s t win hw hn hj h
  by_cases hi : i = .srst
  · subst hi
    cases h
    rfl
  · rw [if_neg hi]
    exact (exec_withWin win s hw hn hj hi).trans (congrArg (resultWithWin win) h)

/-- Settles O46: the window is as before, or WSAMP answered OK has written the one cell it addresses. -/
theorem windowFrameOfEveryCommand : Obligations.WindowFrameOfEveryCommand := by
  intro i s t h hi
  rcases (exec_next h).win_eq_or_written hi with hwin | ⟨idx, val, rfl, hcode, hwin⟩
  · exact ⟨fun a _ => by rw [hwin], fun _ => hwin, fun _ => hwin⟩
  · refine ⟨fun a ha => ?_, fun hc => absurd hcode hc, fun hw => absurd rfl (hw idx val)⟩
    have hne : a ≠ idx := fun e => ha val (e ▸ rfl)
    rw [hwin, Memory.read_write_other _ _ hne]

/-- Settles O25: the two answers of a cell read. -/
theorem memReadAnswersTheCell : Obligations.MemReadAnswersTheCell :=
  fun _ _ => ⟨fun _ hc => memRead_eq_ok.mpr hc, fun hc => memRead_eq_error.mpr ⟨hc, rfl⟩⟩

end Sys2Proof.Machine
end

section
/-! The encoding (30_encoding.md): each word as a number, the fields of a word, and the two directions of the round trip. -/

namespace Sys2Proof

/-! ### The word of each command as a number (30_encoding.md R59) -/

@[simp] theorem toNat_encode_config (sr lf : Nat) :
    (encode (.config sr lf)).toNat = 0x1000000000000000 + sr % 2 ^ 24 * 2 ^ 32 + lf % 2 ^ 32 := by
  rw [encode, toNat_append_eq, toNat_append_eq, toNat_append_eq]
  simp only [BitVec.toNat_ofNat]
  omega

@[simp] theorem toNat_encode_rdreg (reg : Nat) :
    (encode (.rdreg reg)).toNat = 0x2000000000000000 + reg % 2 ^ 4 := by
  rw [encode, toNat_append_eq, toNat_append_eq]
  simp only [BitVec.toNat_ofNat]
  omega

@[simp] theorem toNat_encode_wsamp (idx : Nat) (val : Int) :
    (encode (.wsamp idx val)).toNat =
      0x3000000000000000 + idx % 2 ^ 16 * 2 ^ 32 + (val % 2 ^ 25).toNat := by
  rw [encode, toNat_append_eq, toNat_append_eq, toNat_append_eq, toNat_append_eq]
  simp only [BitVec.toNat_ofNat, BitVec.toNat_ofInt]
  omega

@[simp] theorem toNat_encode_nextb (pos : Nat) :
    (encode (.nextb pos)).toNat = 0x4000000000000000 + pos % 2 ^ 16 := by
  rw [encode, toNat_append_eq, toNat_append_eq]
  simp only [BitVec.toNat_ofNat]
  omega

@[simp] theorem toNat_encode_ishf (pos1 pos2 : Nat) :
    (encode (.ishf pos1 pos2)).toNat =
      0x5000000000000000 + pos2 % 2 ^ 16 * 2 ^ 16 + pos1 % 2 ^ 16 := by
  rw [encode, toNat_append_eq, toNat_append_eq, toNat_append_eq]
  simp only [BitVec.toNat_ofNat]
  omega

@[simp] theorem toNat_encode_judge (pos1 pos2 : Nat) (hint : Bool) :
    (encode (.judge pos1 pos2 hint)).toNat =
      0x6000000000000000 + (if hint then 1 else 0) * 2 ^ 32 + pos2 % 2 ^ 16 * 2 ^ 16 + pos1 % 2 ^ 16 := by
  rw [encode, toNat_append_eq, toNat_append_eq, toNat_append_eq, toNat_append_eq]
  simp only [BitVec.toNat_ofNat, BitVec.toNat_ofBool, Bool.toNat, Bool.cond_eq_ite]
  omega

@[simp] theorem toNat_encode_worst (a b : SignalJudge) :
    (encode (.worst a b)).toNat = 0x7000000000000000 + levelNat b * 4 + levelNat a := by
  cases a <;> cases b <;> rfl

@[simp] theorem toNat_encode_srst : (encode .srst).toNat = 0x8000000000000000 := rfl

/-! ### Fields read as operands (30_encoding.md R52) -/

/-- The two's-complement field, from the same bits unsigned. -/
theorem valField_eq (w : Word) :
    valField w = if field w 0 25 < 2 ^ 24 then (field w 0 25 : Int) else field w 0 25 - 2 ^ 25 := by
  rw [valField, BitVec.toInt_eq_toNat_cond, field]
  split <;> split <;> omega

/-- A one-bit field is 1 exactly when its bit is set; the hint is bit 32. -/
theorem field_one_beq_one (w : Word) (i : Nat) : (field w i 1 == 1) = w.getLsbD i := by
  rw [field_eq, BitVec.getLsbD, Nat.testBit_eq_decide_div_mod_eq]
  rfl

theorem fitsUnsigned_iff {n v : Nat} : fitsUnsigned n v = true ↔ v < 2 ^ n := decide_eq_true_iff

theorem fitsVal_iff {v : Int} : fitsVal v = true ↔ -(2 ^ 24) ≤ v ∧ v < 2 ^ 24 := by
  rw [fitsVal, Bool.and_eq_true, decide_eq_true_iff, decide_eq_true_iff]

theorem levelNat_levelOfNat {n : Nat} (h : n < 4) : levelNat (levelOfNat n) = n := by
  revert n
  decide

theorem levelOfNat_of_levelNat_eq {j : SignalJudge} {n : Nat} (h : levelNat j = n) : levelOfNat n = j := by
  rw [← h, levelOfNat_levelNat]

@[simp] theorem opcodeOf_operands (w : Word) (o : Opcode) : opcodeOf (operands w o) = o := by
  cases o <;> rfl

/-! ### Decoding the word of a command -/

/-- The word of a command lies in the command's row. -/
theorem matchesRow_encode (i : Instr) : matchesRow (encode i) (opcodeOf i) = true := by
  cases i with
  | config sr lf => exact Laws.EncodeRow.config sr lf
  | rdreg reg => exact Laws.EncodeRow.rdreg reg
  | wsamp idx val => exact Laws.EncodeRow.wsamp idx val
  | nextb pos => exact Laws.EncodeRow.nextb pos
  | ishf pos1 pos2 => exact Laws.EncodeRow.ishf pos1 pos2
  | judge pos1 pos2 hint => exact Laws.EncodeRow.judge pos1 pos2 hint
  | worst a b => exact Laws.EncodeRow.worst a b
  | srst => exact Laws.EncodeRow.srst

/-- The fields of the word of a well-formed command are its operands. -/
theorem operands_encode {i : Instr} (hi : i.wellFormed = true) : operands (encode i) (opcodeOf i) = i := by
  cases i with
  | config sr lf =>
    simp only [Instr.wellFormed, Bool.and_eq_true, fitsUnsigned_iff] at hi
    simp only [operands, opcodeOf, field_eq, toNat_encode_config, Instr.config.injEq]
    omega
  | rdreg reg =>
    simp only [Instr.wellFormed, fitsUnsigned_iff] at hi
    simp only [operands, opcodeOf, field_eq, toNat_encode_rdreg, Instr.rdreg.injEq]
    omega
  | wsamp idx val =>
    simp only [Instr.wellFormed, Bool.and_eq_true, fitsUnsigned_iff, fitsVal_iff] at hi
    simp only [operands, opcodeOf, valField_eq, field_eq, toNat_encode_wsamp, Instr.wsamp.injEq]
    omega
  | nextb pos =>
    simp only [Instr.wellFormed, fitsUnsigned_iff] at hi
    simp only [operands, opcodeOf, field_eq, toNat_encode_nextb, Instr.nextb.injEq]
    omega
  | ishf pos1 pos2 =>
    simp only [Instr.wellFormed, Bool.and_eq_true, fitsUnsigned_iff] at hi
    simp only [operands, opcodeOf, field_eq, toNat_encode_ishf, Instr.ishf.injEq]
    omega
  | judge pos1 pos2 hint =>
    simp only [Instr.wellFormed, Bool.and_eq_true, fitsUnsigned_iff] at hi
    simp only [operands, opcodeOf, field_eq, toNat_encode_judge, Instr.judge.injEq]
    refine ⟨?_, ?_, ?_⟩
    · omega
    · omega
    · cases hint <;> simp <;> omega
  | worst a b => cases a <;> cases b <;> decide
  | srst => rfl

/-- Settles O1: the word lies in the command's row, and the row's fields of it are the operands. -/
theorem encodedCommandDecodesBack : Obligations.EncodedCommandDecodesBack := by
  intro i hi
  rw [decode_of_matchesRow (matchesRow_encode i), operands_encode hi]

/-! ### The word of a decoded command -/

/-- The row of SRST as the opcode and its must-be-zero field, as `matchesRow_config` and its like say of the other rows. -/
theorem matchesRow_srst_fields (w : Word) :
    matchesRow w .srst = true ↔ field w 60 4 = 8 ∧ field w 0 60 = 0 := by
  have hw := w.isLt
  have hlit : (0x8000000000000000 : Word).toNat = 8 * 2 ^ 60 := rfl
  rw [matchesRow_srst, ← BitVec.toNat_inj, hlit, field_eq, field_eq]
  omega

/-- No bit of a word of a row is lost: the row fixes the opcode and the must-be-zero bits, and the operands the rest. -/
theorem encode_operands {w : Word} {o : Opcode} (h : matchesRow w o = true) : encode (operands w o) = w := by
  apply BitVec.eq_of_toNat_eq
  have hw := w.isLt
  cases o with
  | config =>
    obtain ⟨hop, hz⟩ := (matchesRow_config w).mp h
    simp only [operands, toNat_encode_config, field_eq] at *
    omega
  | rdreg =>
    obtain ⟨hop, hz⟩ := (matchesRow_rdreg w).mp h
    simp only [operands, toNat_encode_rdreg, field_eq] at *
    omega
  | wsamp =>
    obtain ⟨hop, hz1, hz2⟩ := (matchesRow_wsamp w).mp h
    simp only [operands, toNat_encode_wsamp, valField_eq, field_eq] at *
    omega
  | nextb =>
    obtain ⟨hop, hz⟩ := (matchesRow_nextb w).mp h
    simp only [operands, toNat_encode_nextb, field_eq] at *
    omega
  | ishf =>
    obtain ⟨hop, hz⟩ := (matchesRow_ishf w).mp h
    simp only [operands, toNat_encode_ishf, field_eq] at *
    omega
  | judge =>
    obtain ⟨hop, hz⟩ := (matchesRow_judge w).mp h
    simp only [operands, toNat_encode_judge, field_eq, beq_iff_eq] at *
    split <;> omega
  | worst =>
    obtain ⟨hop, hz⟩ := (matchesRow_worst w).mp h
    rw [operands, toNat_encode_worst, levelNat_levelOfNat (field_lt _ _ 2), levelNat_levelOfNat (field_lt _ _ 2)]
    simp only [field_eq] at *
    omega
  | srst => rw [(matchesRow_srst w).mp h]; rfl

/-- Settles O2: the word is of one row, and the operands read from it encode to it. -/
theorem decodedWordIsItsCommandsWord : Obligations.DecodedWordIsItsCommandsWord := by
  intro w i h
  obtain ⟨o, ho, rfl⟩ := decode_eq_ok h
  exact ⟨operands_wellFormed w o, encode_operands ho⟩

/-! ### The rows of the opcode map (30_encoding.md R54) -/

theorem matchesRow_iff_and_eq {w : Word} {o : Opcode} :
    matchesRow w o = true ↔ w &&& opcodeMask o = opcodeMatch o := beq_iff_eq

/-- A word is the command of a row exactly when it decodes to the row's operands. -/
theorem and_opcodeMask_eq_iff (w : Word) (o : Opcode) :
    w &&& opcodeMask o = opcodeMatch o ↔ decode w = .ok (operands w o) := by
  rw [← matchesRow_iff_and_eq]
  refine ⟨decode_of_matchesRow, fun h => ?_⟩
  obtain ⟨o', ho', he⟩ := decode_eq_ok h
  have : o = o' := by simpa using congrArg opcodeOf he
  exact this ▸ ho'

theorem decode_eq_error_iff {w : Word} {r : Reject} :
    decode w = .error r ↔ (∀ o, matchesRow w o = false) ∧ r = rejectReason w := by
  refine ⟨decode_eq_error, fun ⟨hno, hr⟩ => ?_⟩
  cases hd : decode w with
  | ok i =>
    obtain ⟨o, ho, -⟩ := decode_eq_ok hd
    exact absurd ho (by simp [hno o])
  | error r' => rw [hr, (decode_eq_error hd).2]

/-- Settles O3, row by row; a word that decodes is of some row. -/
theorem wordIsCommandOfItsMatchingRow : Obligations.WordIsCommandOfItsMatchingRow := by
  intro w
  have row := and_opcodeMask_eq_iff w
  refine ⟨row .config, row .rdreg, row .wsamp, row .nextb, row .ishf, ?_, ?_, ?_, ?_⟩
  · rw [← field_one_beq_one]
    exact row .judge
  · refine (row .worst).trans ⟨fun h => ⟨_, _, levelNat_levelOfNat (field_lt w 0 2),
      levelNat_levelOfNat (field_lt w 2 2), h⟩, ?_⟩
    rintro ⟨a, b, ha, hb, h⟩
    rw [operands, field, field, levelOfNat_of_levelNat_eq ha, levelOfNat_of_levelNat_eq hb, h]
  · rw [← matchesRow_srst, matchesRow_iff_and_eq]
    exact row .srst
  · intro h1 h2 h3 h4 h5 h6 h7 h8
    cases hd : decode w with
    | error r => exact ⟨r, rfl⟩
    | ok i =>
      obtain ⟨o, ho, -⟩ := decode_eq_ok hd
      have hm := matchesRow_iff_and_eq.mp ho
      cases o with
      | config => exact absurd hm h1
      | rdreg => exact absurd hm h2
      | wsamp => exact absurd hm h3
      | nextb => exact absurd hm h4
      | ishf => exact absurd hm h5
      | judge => exact absurd hm h6
      | worst => exact absurd hm h7
      | srst => exact absurd ((matchesRow_srst w).mp ho) h8

/-! ### Illegal words (30_encoding.md R56) -/

theorem rejectReason_eq_reservedOpcode {w : Word} :
    rejectReason w = .reservedOpcode ↔ field w 60 4 = 0 ∨ 9 ≤ field w 60 4 := by
  simp only [rejectReason, ite_eq_left_iff, reduceCtorEq, imp_false, not_not]

theorem rejectReason_eq_mustBeZero {w : Word} :
    rejectReason w = .mustBeZero ↔ 1 ≤ field w 60 4 ∧ field w 60 4 ≤ 8 := by
  simp only [rejectReason, ite_eq_right_iff, reduceCtorEq, imp_false]
  omega

/-- Column `opcode` of 30_encoding.md R54. -/
def opcodeNumber : Opcode → Nat
  | .config => 1
  | .rdreg => 2
  | .wsamp => 3
  | .nextb => 4
  | .ishf => 5
  | .judge => 6
  | .worst => 7
  | .srst => 8

/-- The opcode bits of a word of a row are the row's opcode. -/
theorem opcodeField_eq_opcodeNumber {w : Word} {o : Opcode} (h : matchesRow w o = true) :
    field w 60 4 = opcodeNumber o := by
  cases o with
  | config => exact ((matchesRow_config w).mp h).1
  | rdreg => exact ((matchesRow_rdreg w).mp h).1
  | wsamp => exact ((matchesRow_wsamp w).mp h).1
  | nextb => exact ((matchesRow_nextb w).mp h).1
  | ishf => exact ((matchesRow_ishf w).mp h).1
  | judge => exact ((matchesRow_judge w).mp h).1
  | worst => exact ((matchesRow_worst w).mp h).1
  | srst => exact ((matchesRow_srst_fields w).mp h).1

theorem opcodeNumber_inj {o o' : Opcode} (h : opcodeNumber o = opcodeNumber o') : o = o' := by
  revert h
  cases o <;> cases o' <;> decide

/-- The opcodes of the eight rows are 1 to 8. -/
theorem exists_opcodeNumber_iff (n : Nat) : (∃ o, n = opcodeNumber o) ↔ 1 ≤ n ∧ n ≤ 8 := by
  constructor
  · rintro ⟨o, rfl⟩
    cases o <;> decide
  · rintro ⟨h1, h8⟩
    interval_cases n
    exacts [⟨.config, rfl⟩, ⟨.rdreg, rfl⟩, ⟨.wsamp, rfl⟩, ⟨.nextb, rfl⟩, ⟨.ishf, rfl⟩, ⟨.judge, rfl⟩,
      ⟨.worst, rfl⟩, ⟨.srst, rfl⟩]

/-- Ground (a) of 30_encoding.md R56. -/
theorem decode_eq_reservedOpcode_iff (w : Word) :
    decode w = .error .reservedOpcode ↔ field w 60 4 = 0 ∨ 9 ≤ field w 60 4 := by
  rw [decode_eq_error_iff, eq_comm (a := Reject.reservedOpcode), rejectReason_eq_reservedOpcode]
  refine ⟨And.right, fun hres => ⟨fun o => Bool.eq_false_iff.mpr fun ho => ?_, hres⟩⟩
  have := (exists_opcodeNumber_iff _).mp ⟨o, opcodeField_eq_opcodeNumber ho⟩
  omega

/-- Ground (b) of 30_encoding.md R56: the opcode is a row's, and the word is not of that row. -/
theorem decode_eq_mustBeZero_iff (w : Word) :
    decode w = .error .mustBeZero ↔ ∃ o, field w 60 4 = opcodeNumber o ∧ ¬ matchesRow w o = true := by
  rw [decode_eq_error_iff, eq_comm (a := Reject.mustBeZero), rejectReason_eq_mustBeZero,
    ← exists_opcodeNumber_iff]
  constructor
  · rintro ⟨hno, o, ho⟩
    exact ⟨o, ho, Bool.eq_false_iff.mp (hno o)⟩
  · rintro ⟨o, ho, hno⟩
    refine ⟨fun o' => Bool.eq_false_iff.mpr fun ho' => hno ?_, o, ho⟩
    rwa [opcodeNumber_inj (ho.symm.trans (opcodeField_eq_opcodeNumber ho'))]

theorem exists_opcode_iff {p : Opcode → Prop} :
    (∃ o, p o) ↔ p .config ∨ p .rdreg ∨ p .wsamp ∨ p .nextb ∨ p .ishf ∨ p .judge ∨ p .worst ∨ p .srst := by
  constructor
  · rintro ⟨o, h⟩
    cases o <;> simp [h]
  · rintro (h | h | h | h | h | h | h | h) <;> exact ⟨_, h⟩

/-- Settles O4: ground (a) as it stands, ground (b) with each row's must-be-zero fields. -/
theorem illegalWordsAreReservedOrMustBeZero : Obligations.IllegalWordsAreReservedOrMustBeZero := by
  intro w
  refine ⟨decode_eq_reservedOpcode_iff w, ?_⟩
  rw [decode_eq_mustBeZero_iff, exists_opcode_iff, matchesRow_config, matchesRow_rdreg, matchesRow_wsamp,
    matchesRow_nextb, matchesRow_ishf, matchesRow_judge, matchesRow_worst, matchesRow_srst_fields]
  have drop (p q : Prop) : p ∧ ¬ (p ∧ q) ↔ p ∧ ¬ q := and_congr_right fun hp => not_congr (and_iff_right hp)
  simp only [opcodeNumber, drop]
  simp only [not_and_or, ne_eq]

/-! ### The assembler's sums and the sample words -/

/-- Settles O5: an operand in the range of its field is the field. -/
theorem wordIsTheAssemblersSum : Obligations.WordIsTheAssemblersSum := by
  refine ⟨fun sr lf hsr hlf => ?_, fun reg hreg => ?_, fun idx val hidx hlo hhi => ?_, fun pos hpos => ?_,
    fun pos1 pos2 h1 h2 => ?_, fun pos1 pos2 hint h1 h2 => ?_, toNat_encode_worst, toNat_encode_srst⟩
  · rw [toNat_encode_config, Nat.mod_eq_of_lt hsr, Nat.mod_eq_of_lt hlf]
  · rw [toNat_encode_rdreg, Nat.mod_eq_of_lt hreg]
  · rw [toNat_encode_wsamp, Nat.mod_eq_of_lt hidx]
    omega
  · rw [toNat_encode_nextb, Nat.mod_eq_of_lt hpos]
  · rw [toNat_encode_ishf, Nat.mod_eq_of_lt h1, Nat.mod_eq_of_lt h2]
  · rw [toNat_encode_judge, Nat.mod_eq_of_lt h1, Nat.mod_eq_of_lt h2]

/-- Settles O6: the decoder runs on the five words. -/
theorem sampleWordsDecode : Obligations.SampleWordsDecode := by
  unfold Obligations.SampleWordsDecode
  decide

end Sys2Proof
end

section
/-! CONFIG, RDREG and SRST (40_timing_generator.md): what each answers on a running block, register by register, the
source's formulas for the timing values, and SRST as the one way out of the halted state. -/

namespace Sys2Proof.Machine

open Sys2Proof

/-! ### CONFIG on an unconfigured block (40_timing_generator.md R70, R71) -/

theorem execConfig_zero {s : State} {sr lf : Nat} (he : s.err = none) (hc : s.timing = none)
    (hz : sr = 0 ∨ lf = 0) : exec (.config sr lf) s = .next (raise .cfg s) := by
  simp [exec, execConfig, unlessHalted_running he, cfgValid, hc, hz]

theorem execConfig_completes {s : State} {sr lf : Nat} (he : s.err = none) (hc : s.timing = none)
    (hsr : sr ≠ 0) (hlf : lf ≠ 0) :
    exec (.config sr lf) s = .next (respond 0 { s with timing := some (timingOf sr lf) }) := by
  simp [exec, execConfig, unlessHalted_running he, cfgValid, hc, hsr, hlf]

/-- A time of `c/8` low periods of `lf/32` hertz in samples: with `n = 4*c` whole, an integer division. -/
theorem floor_samples_eq_div (sr lf n : Nat) {c : ℚ} (hc : 4 * c = n) :
    ⌊(sr : ℚ) / ((lf : ℚ) / 32) * c / 8⌋ = ((n * sr / lf : Nat) : Int) := by
  have hq : (sr : ℚ) / ((lf : ℚ) / 32) * c / 8 = ((n * sr : Nat) : ℚ) / (lf : ℚ) := by
    rw [Nat.cast_mul, ← hc, div_div_eq_mul_div]
    ring
  rw [hq, Rat.floor_natCast_div_natCast, Int.natCast_ediv]

/-! ### RDREG on a running block (40_timing_generator.md R73) -/

theorem execRdreg_ok {s : State} {reg : Nat} {v : BitVec 32} (he : s.err = none)
    (hv : registerValue s reg = .ok v) : exec (.rdreg reg) s = .next (respond v s) := by
  simp [exec, execRdreg, unlessHalted_running he, hv]

theorem execRdreg_error {s : State} {reg : Nat} {e : ErrorCode} (he : s.err = none)
    (hv : registerValue s reg = .error e) : exec (.rdreg reg) s = .next (raise e s) := by
  simp [exec, execRdreg, unlessHalted_running he, hv]

/-- STATUS of a running block is its CFG_VALID bit (10_state.md R19). -/
theorem statusWord_toNat_running {s : State} (he : s.err = none) :
    (statusWord s).toNat = if s.timing.isSome then 1 else 0 := by
  rw [statusWord_toNat, errField_of_none he]
  exact Nat.zero_add _

theorem configuredValue_of_some {s : State} {r : Timing} (hr : s.timing = some r) (get : Timing → BitVec 32) :
    configuredValue s get = .ok (get r) := by
  simp [configuredValue, hr]

theorem configuredValue_of_none {s : State} (hc : s.timing = none) (get : Timing → BitVec 32) :
    configuredValue s get = .error .nocfg := by
  simp [configuredValue, hc]

/-- Registers 1 to 5 of a configured block: each fits the 32 bits of the answer (10_state.md R22). -/
theorem registerValue_of_configured {s : State} {r : Timing} (hr : s.timing = some r) {reg v : Nat}
    (h : (reg, v) ∈ [(1, r.sampleRate.toNat), (2, r.lowFreq.toNat), (3, r.t34.toNat), (4, r.t54.toNat),
      (5, r.t94.toNat)]) : ∃ b : BitVec 32, registerValue s reg = .ok b ∧ b.toNat = v := by
  simp only [List.mem_cons, Prod.mk.injEq, List.not_mem_nil, or_false] at h
  rcases h with ⟨rfl, rfl⟩ | ⟨rfl, rfl⟩ | ⟨rfl, rfl⟩ | ⟨rfl, rfl⟩ | ⟨rfl, rfl⟩
  · exact ⟨_, configuredValue_of_some hr _, BitVec.toNat_setWidth_of_le (by decide)⟩
  · exact ⟨_, configuredValue_of_some hr _, rfl⟩
  · exact ⟨_, configuredValue_of_some hr _, rfl⟩
  · exact ⟨_, configuredValue_of_some hr _, rfl⟩
  · exact ⟨_, configuredValue_of_some hr _, rfl⟩

theorem registerValue_of_unconfigured {s : State} (hc : s.timing = none) {reg : Nat} (h1 : 1 ≤ reg)
    (h5 : reg ≤ 5) : registerValue s reg = .error .nocfg := by
  interval_cases reg <;> exact configuredValue_of_none hc _

theorem registerValue_reserved (s : State) {reg : Nat} (h : 7 ≤ reg) : registerValue s reg = .error .illegal := by
  obtain ⟨n, rfl⟩ := Nat.exists_eq_add_of_le' h
  rfl

/-! ### The obligations -/

/-- Settles O14: an answer or a refusal leaves STATUS.ERR alone, and every other effect but the reset has a running
block before it. -/
theorem onlySrstLeavesTheHaltedState : Obligations.OnlySrstLeavesTheHaltedState := by
  intro i s t hs h hne
  cases exec_next h with
  | answered v _ => exact absurd rfl hne
  | refused _ => exact absurd rfl hne
  | raised e he => exact absurd he hs
  | configured sr lf _ he => exact absurd he hs
  | written idx val _ he => exact absurd he hs
  | reset hi => exact ⟨hi, rfl⟩

/-- Settles O18: SRST has no guard, and its row of the opcode map fixes all 64 bits. -/
theorem srstEndsTheSession : Obligations.SrstEndsTheSession := by
  refine ⟨fun s => ⟨_, rfl, respond_eq 0 (resetBlock s), fun _ => rfl⟩, fun w => decode_eq_srst, fun w hop hz => ?_⟩
  refine (decode_eq_mustBeZero_iff w).mpr ⟨.srst, hop, fun hm => ?_⟩
  exact hz ((matchesRow_srst_fields w).mp hm).2

/-- Settles O20, by the three outcomes of CONFIG; the registers written are the exact quotients. -/
theorem configDerivesTheTiming : Obligations.ConfigDerivesTheTiming := by
  intro s sr lf he hsr hlf
  refine ⟨fun hc => ?_, fun hc hz => ?_, fun hc hsr0 hlf0 => ?_⟩
  · obtain ⟨r, hr⟩ := Option.ne_none_iff_exists'.mp hc
    rw [execConfig_locked sr lf he hr, raise_eq]
    rfl
  · rw [execConfig_zero he hc hz, raise_eq]
    rfl
  · refine ⟨timingOf sr lf, ?_, timingOf_toNat hsr hlf⟩
    rw [execConfig_completes he hc hsr0 hlf0, respond_eq]
    rfl

/-- Settles O21: `32 * 2.75/8 = 11`, `32 * 5.25/8 = 21` and `32 * 8.25/8 = 33`. -/
theorem timingIsTheSourcesFormula : Obligations.TimingIsTheSourcesFormula := by
  intro s sr lf he hc hsr0 hsr hlf0 hlf
  obtain ⟨-, -, h34, h54, h94⟩ := timingOf_toNat hsr hlf
  refine ⟨_, timingOf sr lf, execConfig_completes he hc hsr0.ne' hlf0.ne', rfl, ?_, ?_, ?_, h34, h54, h94⟩
  · rw [h34, floor_samples_eq_div sr lf 11 (by norm_num)]
  · rw [h54, floor_samples_eq_div sr lf 21 (by norm_num)]
  · rw [h94, floor_samples_eq_div sr lf 33 (by norm_num), Nat.cast_succ]

/-- Settles O23, from the value of each register. -/
theorem rdregReadsTheRegisters : Obligations.RdregReadsTheRegisters := by
  intro s he
  refine ⟨⟨_, ?_, rfl⟩, fun r hr reg v hmem => ?_, fun hc reg h1 h5 => ?_, fun hh => ?_, fun reg h7 => ?_⟩
  · rw [execRdreg_ok he rfl, respond_eq, statusWord_toNat_running he]
  · obtain ⟨b, hb, rfl⟩ := registerValue_of_configured hr hmem
    rw [execRdreg_ok he hb, respond_eq]
  · rw [execRdreg_error he (registerValue_of_unconfigured hc h1 h5), raise_eq]
    rfl
  · have hw : (BitVec.ofNat 32 (windowLength s)).toNat = 2 * s.halfWindow :=
      Nat.mod_eq_of_lt (show 2 * s.halfWindow < 2 ^ 32 by omega)
    rw [execRdreg_ok he rfl, respond_eq, hw]
  · rw [execRdreg_error he (registerValue_reserved s h7), raise_eq]
    rfl

end Sys2Proof.Machine
end

section
/-! WSAMP (41_window_write.md): its three answers on a running block, and the one cell it writes. -/

namespace Sys2Proof.Machine

open Sys2Proof

/-! ### The answers of WSAMP (41_window_write.md R80) -/

theorem execWsamp_range {s : State} {idx : Nat} (val : Int) (he : s.err = none) (hx : windowLength s ≤ idx) :
    exec (.wsamp idx val) s = .next (raise .range s) := by
  simp [exec, execWsamp, unlessHalted_running he, hx]

theorem execWsamp_sample {s : State} {idx : Nat} {val : Int} (he : s.err = none) (hx : idx < windowLength s)
    (hv : val < -Config.fullScale ∨ Config.fullScale < val) :
    exec (.wsamp idx val) s = .next (raise .sample s) := by
  simp [exec, execWsamp, unlessHalted_running he, Nat.not_le.mpr hx, hv]

theorem execWsamp_completes {s : State} {idx : Nat} {val : Int} (he : s.err = none) (hx : idx < windowLength s)
    (hlo : -Config.fullScale ≤ val) (hhi : val ≤ Config.fullScale) :
    exec (.wsamp idx val) s = .next (respond 0 (memWrite idx val s)) := by
  simp [exec, execWsamp, unlessHalted_running he, Nat.not_le.mpr hx, Int.not_lt.mpr hlo, Int.not_lt.mpr hhi]

/-! ### The obligation -/

/-- Settles O27, by the three answers of WSAMP; the completed write is MemWrite's (20_memory.md R37). -/
theorem wsampWritesOneCell : Obligations.WsampWritesOneCell := by
  intro s idx val he
  refine ⟨fun hx => ?_, fun hx hv => ?_, fun hx hlo hhi =>
    ⟨_, execWsamp_completes he hx hlo hhi, respond_eq 0 (memWrite idx val s), ?_, fun a ha => ?_⟩⟩
  · rw [execWsamp_range val he hx, raise_eq]
    rfl
  · rw [execWsamp_sample he hx hv, raise_eq]
    rfl
  · exact cellHolds_memWrite s idx hlo hhi
  · exact Memory.read_write_other _ _ ha

end Sys2Proof.Machine
end

section
/-! NEXTB (42_boundary_search.md): the thresholds and what offset and gain do to them, the answers on a running block,
where its loops stop on a fully written range, and the boundary they give. -/

namespace Sys2Proof.Machine

open Sys2Proof

/-! ### The thresholds (42_boundary_search.md R86, R87) -/

/-- The thresholds of the samples `gain*c + offset`, in the scales the model keeps them in (R87). -/
def Thresholds.rescale (gain offset : Int) (th : Thresholds) : Thresholds where
  mx := gain * th.mx + offset
  mn := gain * th.mn + offset
  avg2 := gain * th.avg2 + 2 * offset
  high8 := gain * th.high8 + 8 * offset
  low8 := gain * th.low8 + 8 * offset

theorem thresholdsOf_rescale (gain offset mx mn : Int) :
    thresholdsOf (gain * mx + offset) (gain * mn + offset) = (thresholdsOf mx mn).rescale gain offset := by
  simp only [thresholdsOf, Thresholds.rescale, Thresholds.mk.injEq, true_and]
  exact ⟨by ring, by ring, by ring⟩

/-- A positive gain keeps the order of the samples, so the extremes of the range stay where they are. -/
theorem thresholds_rescale {cells : List Int} {th : Thresholds} (h : thresholds cells = some th) {gain : Int}
    (hg : 0 < gain) (offset : Int) :
    thresholds (cells.map (fun c => gain * c + offset)) = some (th.rescale gain offset) := by
  obtain ⟨heq, hmx, hmn, hle, hge⟩ := thresholds_eq_some h
  rw [heq, ← thresholdsOf_rescale]
  apply thresholds_of_extremes (List.mem_map_of_mem hmx) (List.mem_map_of_mem hmn)
  · exact List.forall_mem_map.mpr fun c hc => by gcongr; exact hle c hc
  · exact List.forall_mem_map.mpr fun c hc => by gcongr; exact hge c hc

/-! ### The tests of the search under offset and gain (42_boundary_search.md R87, R91) -/

/-- A test that does not tell a sample from its image comes out the same on the mapped cells. -/
theorem sampleAt_map_any {f : Int → Int} {test test' : Int → Bool} (h : ∀ c, test' (f c) = test c)
    (cells : List Int) (start p : Nat) :
    (sampleAt (cells.map f) start p).any test' = (sampleAt cells start p).any test := by
  simp [sampleAt, Option.any_map, h]

section Rescale

variable {gain : Int} (hg : 0 < gain) (offset : Int) (th : Thresholds) (c : Int)
include hg

theorem aboveLow_rescale : aboveLow (th.rescale gain offset) (gain * c + offset) = aboveLow th c := by
  have hscale : 8 * (gain * c + offset) = gain * (8 * c) + 8 * offset := by ring
  simp [aboveLow, Thresholds.rescale, hscale, hg]

theorem belowHigh_rescale : belowHigh (th.rescale gain offset) (gain * c + offset) = belowHigh th c := by
  have hscale : 8 * (gain * c + offset) = gain * (8 * c) + 8 * offset := by ring
  simp [belowHigh, Thresholds.rescale, hscale, hg]

theorem aboveAvg_rescale : aboveAvg (th.rescale gain offset) (gain * c + offset) = aboveAvg th c := by
  have hscale : 2 * (gain * c + offset) = gain * (2 * c) + 2 * offset := by ring
  simp [aboveAvg, Thresholds.rescale, hscale, hg]

theorem atOrAboveAvg_rescale :
    atOrAboveAvg (th.rescale gain offset) (gain * c + offset) = atOrAboveAvg th c := by
  have hscale : 2 * (gain * c + offset) = gain * (2 * c) + 2 * offset := by ring
  simp [atOrAboveAvg, Thresholds.rescale, hscale, hg]

variable (cells : List Int) (start : Nat)

theorem scanEnd_rescale (spos limit : Nat) :
    scanEnd (cells.map (fun c => gain * c + offset)) (th.rescale gain offset) start spos limit =
      scanEnd cells th start spos limit := by
  simp only [scanEnd, sampleAt_map_any (aboveLow_rescale hg offset th),
    sampleAt_map_any (belowHigh_rescale hg offset th)]

theorem walkBack_rescale (spos p : Nat) :
    walkBack (cells.map (fun c => gain * c + offset)) (th.rescale gain offset) start spos p =
      walkBack cells th start spos p := by
  simp only [walkBack, sampleAt_map_any (atOrAboveAvg_rescale hg offset th)]

/-- Every test the search makes comes out as before, so it ends where it did. -/
theorem nextBoundary_rescale (limit t34 : Nat) :
    nextBoundary (cells.map (fun c => gain * c + offset)) (th.rescale gain offset) start limit t34 =
      nextBoundary cells th start limit t34 := by
  rw [nextBoundary, nextBoundary, scanEnd_rescale hg, sampleAt_map_any (aboveAvg_rescale hg offset th),
    walkBack_rescale hg, walkBack_rescale hg]

end Rescale

/-! ### The answers of NEXTB on a running block (42_boundary_search.md R88) -/

theorem readRange_eq_uninit {s : State} {r : Timing} {pos i : Nat} (hlo : pos ≤ i)
    (hhi : i < searchLimit s r pos) (hi : CellEmpty s i) : readRange s r pos = .error .uninit := by
  refine readCells_eq_error.mpr ⟨rfl, i - pos, by omega, ?_⟩
  rwa [Nat.add_sub_cancel' hlo]

theorem execNextb_nocfg {s : State} (pos : Nat) (he : s.err = none) (hc : s.timing = none) :
    exec (.nextb pos) s = .next (raise .nocfg s) := by
  simp [exec, execNextb, unlessHalted_running he, hc]

theorem execNextb_range {s : State} {r : Timing} {pos : Nat} (he : s.err = none) (hr : s.timing = some r)
    (hpos : windowLength s ≤ pos) : exec (.nextb pos) s = .next (raise .range s) := by
  simp [exec, execNextb, unlessHalted_running he, hr, hpos]

theorem execNextb_unreadable {s : State} {r : Timing} {pos : Nat} {e : ErrorCode} (he : s.err = none)
    (hr : s.timing = some r) (hpos : pos < windowLength s) (hread : readRange s r pos = .error e) :
    exec (.nextb pos) s = .next (raise e s) := by
  simp [exec, execNextb, unlessHalted_running he, hr, Nat.not_le.mpr hpos, hread]

theorem execNextb_completes {s : State} {r : Timing} {pos : Nat} {cells : List Int} {th : Thresholds}
    (he : s.err = none) (hr : s.timing = some r) (hpos : pos < windowLength s)
    (hread : readRange s r pos = .ok cells) (hth : thresholds cells = some th) :
    exec (.nextb pos) s = .next (respond
      (BitVec.ofNat 32 (nextBoundary cells th pos (searchLimit s r pos) r.t34.toNat)) s) := by
  simp [exec, execNextb, unlessHalted_running he, hr, Nat.not_le.mpr hpos, hread, hth]

/-! ### A fully written range, as the search reads it -/

/-- The values of the positions `[start, limit)`, in order. -/
def rangeCells (cell : Nat → Int) (start limit : Nat) : List Int :=
  (List.range (limit - start)).map fun k => cell (start + k)

theorem mem_rangeCells {cell : Nat → Int} {start limit : Nat} {c : Int} :
    c ∈ rangeCells cell start limit ↔ ∃ p, start ≤ p ∧ p < limit ∧ cell p = c := by
  simp only [rangeCells, List.mem_map, List.mem_range]
  constructor
  · rintro ⟨k, hk, hc⟩
    exact ⟨start + k, Nat.le_add_right start k, by omega, hc⟩
  · rintro ⟨p, hlo, hhi, hc⟩
    exact ⟨p - start, by omega, by rwa [Nat.add_sub_cancel' hlo]⟩

theorem sampleAt_rangeCells (cell : Nat → Int) {start limit p : Nat} (hlo : start ≤ p) (hhi : p < limit) :
    sampleAt (rangeCells cell start limit) start p = some (cell p) := by
  have hp : p - start < limit - start := by omega
  simp [sampleAt, rangeCells, hp, Nat.add_sub_cancel' hlo]

namespace RangeHolds

variable {s : State} {r : Timing} {pos limit : Nat} {cell : Nat → Int} {mx mn : Int}

theorem searchLimit_eq (h : RangeHolds s r pos limit cell mx mn) : searchLimit s r pos = limit := h.1.symm

theorem pos_lt (h : RangeHolds s r pos limit cell mx mn) : pos < limit := h.2.1

theorem limit_le (h : RangeHolds s r pos limit cell mx mn) : limit ≤ 2 * s.halfWindow :=
  h.searchLimit_eq ▸ Nat.min_le_right _ _

theorem readRange_eq (h : RangeHolds s r pos limit cell mx mn) :
    readRange s r pos = .ok (rangeCells cell pos limit) := by
  rw [readRange, h.searchLimit_eq]
  obtain ⟨-, -, hcells, -⟩ := h
  refine readCells_eq_ok.mpr ⟨by simp [rangeCells], fun k hk => ?_⟩
  have hk : k < limit - pos := by simpa [rangeCells] using hk
  simpa [rangeCells, CellHolds] using hcells (pos + k) (by omega) (by omega)

/-- The extremes of a range are attained and bound its cells, so they are those `THRESH` finds. -/
theorem thresholds_eq (h : RangeHolds s r pos limit cell mx mn) :
    thresholds (rangeCells cell pos limit) = some (thresholdsOf mx mn) := by
  obtain ⟨-, -, -, hmx, hmn, hle, hge⟩ := h
  apply thresholds_of_extremes (mem_rangeCells.mpr hmx) (mem_rangeCells.mpr hmn)
  · intro x hx
    obtain ⟨p, hlo, hhi, rfl⟩ := mem_rangeCells.mp hx
    exact hle p hlo hhi
  · intro x hx
    obtain ⟨p, hlo, hhi, rfl⟩ := mem_rangeCells.mp hx
    exact hge p hlo hhi

end RangeHolds

/-! ### Where the loops stop -/

theorem advanceWhile_scanStops {keep : Nat → Bool} {stop : Nat → Prop} {lo limit : Nat}
    (h : ∀ k, lo ≤ k → k < limit → (keep k = true ↔ ¬ stop k)) :
    ScanStops stop lo limit (advanceWhile keep (limit - lo) lo) := by
  obtain ⟨hlo, hhi, hkeep, hstop⟩ := advanceWhile_spec keep (limit - lo) lo
  refine ⟨hlo, by omega, fun k h1 h2 => (h k h1 (by omega)).mp (hkeep k h1 h2), fun hlt => ?_⟩
  have hfalse := hstop (by omega)
  by_contra hns
  rw [(h _ hlo hlt).mpr hns] at hfalse
  cases hfalse

theorem retreatWhile_walkStops {keep : Nat → Bool} {pass : Nat → Prop} {lo hi : Nat}
    (h : ∀ k, lo < k → k ≤ hi → (keep k = true ↔ pass k)) :
    WalkStops pass lo hi (retreatWhile keep (hi - lo) hi) := by
  obtain ⟨hhi, hlo, hkeep, hstop⟩ := retreatWhile_spec keep (hi - lo) hi (Nat.sub_le hi lo)
  refine ⟨hhi, by omega, fun k h1 h2 => (h k (by omega) h2).mp (hkeep k h1 h2), fun hlt hpass => ?_⟩
  have hfalse := hstop (by omega)
  rw [(h _ hlt hhi).mpr hpass] at hfalse
  cases hfalse

/-- A scan stops at one position only. -/
theorem ScanStops.unique {stop : Nat → Prop} {lo limit p q : Nat} (hp : ScanStops stop lo limit p)
    (hq : ScanStops stop lo limit q) : p = q := by
  obtain ⟨hp1, hp2, hp3, hp4⟩ := hp
  obtain ⟨hq1, hq2, hq3, hq4⟩ := hq
  rcases Nat.lt_trichotomy p q with hlt | heq | hlt
  · exact absurd (hp4 (by omega)) (hq3 p hp1 hlt)
  · exact heq
  · exact absurd (hq4 (by omega)) (hp3 q hq1 hlt)

/-- A scan does not move when its first position stops it or lies at or past the bound. -/
theorem scanStops_start {stop : Nat → Prop} {lo limit : Nat} (h : lo < limit → stop lo) :
    ScanStops stop lo limit lo :=
  ⟨Nat.le_refl lo, Nat.le_max_left lo limit, fun _ h1 h2 => absurd h1 (Nat.not_le.mpr h2), h⟩

/-- A walk does not move when it starts at or below its lower bound. -/
theorem WalkStops.eq_of_le {pass : Nat → Prop} {lo hi r : Nat} (h : WalkStops pass lo hi r) (hle : hi ≤ lo) :
    r = hi := by
  obtain ⟨hhi, hlo, -, -⟩ := h
  omega

/-- A walk does not move when its first position does not pass. -/
theorem WalkStops.eq_of_not_pass {pass : Nat → Prop} {lo hi r : Nat} (h : WalkStops pass lo hi r)
    (hn : ¬ pass hi) : r = hi := by
  obtain ⟨hhi, -, hpass, -⟩ := h
  by_contra hne
  exact hn (hpass hi (by omega) (Nat.le_refl hi))

/-! ### The position NEXTB computes is the boundary (42_boundary_search.md R88, R90, R91) -/

section Boundary

variable (cell : Nat → Int) (mx mn : Int) {start limit spos : Nat}

theorem scanEnd_scanStops (hspos : start ≤ spos) :
    ∃ p1, ScanStops (fun p => 8 * cell p ≤ 3 * mx + 5 * mn) spos limit p1 ∧
      ScanStops (fun p => 5 * mx + 3 * mn ≤ 8 * cell p) p1 limit
        (scanEnd (rangeCells cell start limit) (thresholdsOf mx mn) start spos limit) := by
  have hdip := advanceWhile_scanStops (lo := spos) (limit := limit)
    (keep := fun p => (sampleAt (rangeCells cell start limit) start p).any (aboveLow (thresholdsOf mx mn)))
    (stop := fun p => 8 * cell p ≤ 3 * mx + 5 * mn)
    fun k h1 h2 => by simp [sampleAt_rangeCells cell (hspos.trans h1) h2, aboveLow, thresholdsOf]
  exact ⟨_, hdip, advanceWhile_scanStops fun k h1 h2 => by
    simp [sampleAt_rangeCells cell (hspos.trans (hdip.1.trans h1)) h2, belowHigh, thresholdsOf]⟩

theorem walkBack_walkStops (hspos : start ≤ spos) {hi : Nat} (hhi : hi < limit) :
    WalkStops (fun p => mx + mn ≤ 2 * cell p) spos hi
      (walkBack (rangeCells cell start limit) (thresholdsOf mx mn) start spos hi) :=
  retreatWhile_walkStops fun k h1 h2 => by
    simp [sampleAt_rangeCells cell (hspos.trans h1.le) (h2.trans_lt hhi), atOrAboveAvg, thresholdsOf]

theorem nextBoundary_isBoundary (hlt : start < limit) (t34 : Nat) :
    IsBoundary cell (start + t34) limit mx mn
      (nextBoundary (rangeCells cell start limit) (thresholdsOf mx mn) start limit t34) := by
  have hspos : start ≤ start + t34 := Nat.le_add_right start t34
  have hlast : limit - 1 < limit := by omega
  have habove : (sampleAt (rangeCells cell start limit) start (limit - 1)).any
      (aboveAvg (thresholdsOf mx mn)) = true ↔ mx + mn < 2 * cell (limit - 1) := by
    simp [sampleAt_rangeCells cell (Nat.le_sub_one_of_lt hlt) hlast, aboveAvg, thresholdsOf]
  obtain ⟨p1, hp1, hp2⟩ := scanEnd_scanStops cell mx mn hspos
  refine ⟨p1, _, hp1, hp2, fun hfound => ?_, fun hexh hab => ?_, fun hexh hnab => ?_⟩
  · rw [nextBoundary, if_neg (Nat.not_le.mpr hfound)]
    exact walkBack_walkStops cell mx mn hspos hfound
  · rw [nextBoundary, if_pos hexh, if_pos (habove.mpr hab)]
  · rw [nextBoundary, if_pos hexh, if_neg (mt habove.mp (Int.not_lt.mpr hnab))]
    exact walkBack_walkStops cell mx mn hspos hlast

end Boundary

/-! ### What a boundary is, by how the scan ends (42_boundary_search.md R89, R90, R92, R93) -/

namespace IsBoundary

variable {cell : Nat → Int} {spos limit : Nat} {mx mn : Int} {b p1 p2 : Nat}

/-- The boundary lies in the range: the scan starts in it or past it, and the walk starts inside it. -/
theorem mem_range (h : IsBoundary cell spos limit mx mn b) {pos : Nat} (hspos : pos ≤ spos) (hlt : pos < limit) :
    pos ≤ b ∧ b ≤ limit - 1 := by
  obtain ⟨p1, p2, hp1, hp2, hfound, habove, hnot⟩ := h
  have hp : spos ≤ p2 := hp1.1.trans hp2.1
  by_cases hp2l : p2 < limit
  · obtain ⟨hhi, hlo, -, -⟩ := hfound hp2l
    omega
  · by_cases hab : mx + mn < 2 * cell (limit - 1)
    · have := habove (by omega) hab
      omega
    · obtain ⟨hhi, hlo, -, -⟩ := hnot (by omega) (by omega)
      omega

/-- Both phases stop inside the range: the boundary is where the walk from the rise stops. -/
theorem walkStops_of_rise (h : IsBoundary cell spos limit mx mn b)
    (hp1 : ScanStops (fun p => 8 * cell p ≤ 3 * mx + 5 * mn) spos limit p1)
    (hp2 : ScanStops (fun p => 5 * mx + 3 * mn ≤ 8 * cell p) p1 limit p2) (hlt : p2 < limit) :
    WalkStops (fun p => mx + mn ≤ 2 * cell p) spos p2 b := by
  obtain ⟨q1, q2, hq1, hq2, hfound, -, -⟩ := h
  obtain rfl := hq1.unique hp1
  obtain rfl := hq2.unique hp2
  exact hfound hlt

/-- No rise follows the first phase: the boundary is the last cell, or where the walk from it stops. -/
theorem of_no_rise (h : IsBoundary cell spos limit mx mn b)
    (hp1 : ScanStops (fun p => 8 * cell p ≤ 3 * mx + 5 * mn) spos limit p1)
    (hno : ∀ k, p1 ≤ k → k < limit → 8 * cell k < 5 * mx + 3 * mn) :
    (mx + mn < 2 * cell (limit - 1) → b = limit - 1) ∧
      (2 * cell (limit - 1) ≤ mx + mn → WalkStops (fun p => mx + mn ≤ 2 * cell p) spos (limit - 1) b) := by
  obtain ⟨q1, q2, hq1, ⟨hle, -, -, hrise⟩, -, habove, hnot⟩ := h
  obtain rfl := hq1.unique hp1
  have hexh : limit ≤ q2 := by
    by_contra hlt
    exact absurd (hrise (by omega)) (Int.not_le.mpr (hno q2 hle (by omega)))
  exact ⟨habove hexh, hnot hexh⟩

/-- A scan that starts at or past the horizon answers the last cell. -/
theorem eq_last_of_short (h : IsBoundary cell spos limit mx mn b) (hshort : limit ≤ spos) : b = limit - 1 := by
  obtain ⟨habove, hnot⟩ := h.of_no_rise (scanStops_start fun hlt => absurd hshort (Nat.not_le.mpr hlt))
    fun k h1 h2 => by omega
  by_cases hab : mx + mn < 2 * cell (limit - 1)
  · exact habove hab
  · exact (hnot (by omega)).eq_of_le (by omega)

/-- In a flat range both phases stop where they start, and the walk does not move. -/
theorem eq_start_of_flat {m : Int} (h : IsBoundary (fun _ => m) spos limit m m b) (hlt : spos < limit) :
    b = spos :=
  (h.walkStops_of_rise (scanStops_start fun _ => by omega) (scanStops_start fun _ => by omega) hlt).eq_of_le
    (Nat.le_refl spos)

end IsBoundary

/-- The walk back from a rise stops at the dip at the latest: the dip is below `avg`, as the range is not flat. -/
theorem WalkStops.upward_crossing {cell : Nat → Int} {spos p1 p2 b : Nat} {mx mn : Int}
    (h : WalkStops (fun p => mx + mn ≤ 2 * cell p) spos p2 b) (hne : mn < mx) (hspos : spos ≤ p1) (hp : p1 ≤ p2)
    (hdip : 8 * cell p1 ≤ 3 * mx + 5 * mn) (hrise : 5 * mx + 3 * mn ≤ 8 * cell p2) :
    p1 ≤ b ∧ b < p2 ∧ 2 * cell b < mx + mn := by
  obtain ⟨hhi, -, hpass, hstop⟩ := h
  have hlow : 2 * cell p1 < mx + mn := by omega
  have hhigh : mx + mn ≤ 2 * cell p2 := by omega
  have hge : p1 ≤ b := by
    by_contra hlt
    exact absurd (hpass p1 (by omega) hp) (Int.not_le.mpr hlow)
  have hb : 2 * cell b < mx + mn := by
    rcases Nat.eq_or_lt_of_le hge with rfl | hgt
    · exact hlow
    · exact Int.not_le.mp (hstop (by omega))
  refine ⟨hge, Nat.lt_of_le_of_ne hhi fun heq => ?_, hb⟩
  rw [heq] at hb
  omega

/-- NEXTB on a fully written range of a running block answers OK with the boundary of the range. -/
theorem RangeHolds.execNextb_eq {s : State} {r : Timing} {pos limit : Nat} {cell : Nat → Int} {mx mn : Int}
    (h : RangeHolds s r pos limit cell mx mn) (he : s.err = none) (hr : s.timing = some r)
    (hH : s.halfWindow ≤ 32768) :
    ∃ b, exec (.nextb pos) s = .next { s with resp := okResponse b, responses := s.responses ++ [okResponse b] } ∧
      IsBoundary cell (pos + r.t34.toNat) limit mx mn b := by
  have hpos : pos < windowLength s := h.pos_lt.trans_le h.limit_le
  have hb := nextBoundary_isBoundary cell mx mn h.pos_lt r.t34.toNat
  refine ⟨_, ?_, hb⟩
  have hle := (hb.mem_range (Nat.le_add_right _ _) h.pos_lt).2
  have hlim := h.limit_le
  rw [execNextb_completes he hr hpos h.readRange_eq h.thresholds_eq, h.searchLimit_eq, respond_eq, BitVec.toNat_ofNat,
    Nat.mod_eq_of_lt (by omega)]

/-! ### The obligations -/

/-- Settles O28, by the three guards of NEXTB; the range read fails at the empty cell. -/
theorem nextbErrorsInOrder : Obligations.NextbErrorsInOrder := by
  intro s pos he
  refine ⟨fun hc => ?_, fun hc hpos => ?_, fun r hr hpos ⟨i, hlo, hhi, hi⟩ => ?_⟩
  · rw [execNextb_nocfg pos he hc, raise_eq]
    rfl
  · obtain ⟨r, hr⟩ := Option.ne_none_iff_exists'.mp hc
    rw [execNextb_range he hr hpos, raise_eq]
    rfl
  · rw [execNextb_unreadable he hr hpos (readRange_eq_uninit hlo hhi hi), raise_eq]
    rfl

/-- Settles O29, by where the two phases and the walk stop. -/
theorem nextbAnswersTheBoundary : Obligations.NextbAnswersTheBoundary := by
  intro s r pos limit cell mx mn he hr hH h
  obtain ⟨b, hexec, hb⟩ := h.execNextb_eq he hr hH
  obtain ⟨hlo, hhi⟩ := hb.mem_range (Nat.le_add_right _ _) h.pos_lt
  exact ⟨b, hexec, hb, hlo, hhi, h.limit_le⟩

/-- Settles O30: the walk from the rise cannot pass the dip. -/
theorem boundaryIsAnUpwardCrossing : Obligations.BoundaryIsAnUpwardCrossing := by
  intro s r pos limit cell mx mn p1 p2 he hr hH h hne hp1 hp2 hlt
  obtain ⟨b, hexec, hb⟩ := h.execNextb_eq he hr hH
  have hwalk := hb.walkStops_of_rise hp1 hp2 hlt
  obtain ⟨hspos, -, -, hdip⟩ := hp1
  obtain ⟨hp, -, -, hrise⟩ := hp2
  obtain ⟨hlo, hhi, hbelow⟩ :=
    hwalk.upward_crossing hne hspos hp (hdip (hp.trans_lt hlt)) (hrise hlt)
  obtain ⟨-, -, hpass, -⟩ := hwalk
  exact ⟨b, hexec, hlo, hhi, hbelow, hpass⟩

/-- Settles O31: without a rise the scan is exhausted, and a last cell below `avg` does not let the walk move. -/
theorem exhaustedScanAnswersTheHorizon : Obligations.ExhaustedScanAnswersTheHorizon := by
  intro s r pos limit cell mx mn p1 he hr hH h hp1 hno
  obtain ⟨b, hexec, hb⟩ := h.execNextb_eq he hr hH
  obtain ⟨habove, hnot⟩ := hb.of_no_rise hp1 hno
  refine ⟨b, hexec, habove, hnot, fun hne => ?_⟩
  rcases Int.lt_or_gt_of_ne hne with hlt | hgt
  · exact (hnot hlt.le).eq_of_not_pass (Int.not_le.mpr hlt)
  · exact habove hgt

/-- Settles O32, by the flat and the short case of the boundary. -/
theorem flatRangeAnswersItsStartOffset : Obligations.FlatRangeAnswersItsStartOffset := by
  intro s r pos limit m he hr hH h
  obtain ⟨b, hexec, hb⟩ := h.execNextb_eq he hr hH
  exact ⟨fun hlt => hb.eq_start_of_flat hlt ▸ hexec, fun hle => hb.eq_last_of_short hle ▸ hexec⟩

/-- Settles O33: since `T34 < T94`, a range that ends at or before `spos` is cut off by the window's end; from L - 1 the
range is one cell. -/
theorem shortRangeAnswersTheLastCell : Obligations.ShortRangeAnswersTheLastCell := by
  intro s r pos limit cell mx mn he hr hH ⟨h3454, h5494⟩ h
  obtain ⟨b, hexec, hb⟩ := h.execNextb_eq he hr hH
  refine ⟨fun hshort => ?_, fun hlast => ?_⟩
  · have hlimit : limit = 2 * s.halfWindow := by
      have := h.searchLimit_eq
      simp only [searchLimit, windowLength] at this
      omega
    exact ⟨hlimit, hlimit ▸ hshort, hb.eq_last_of_short hshort ▸ hexec⟩
  · obtain ⟨hlo, hhi⟩ := hb.mem_range (Nat.le_add_right _ _) h.pos_lt
    have hle := h.limit_le
    have hbpos : b = pos := by omega
    exact hbpos ▸ hexec

/-- Settles O34: the thresholds are fixed combinations of the extremes (42_boundary_search.md R86). -/
theorem thresholdsAreOrdered : Obligations.ThresholdsAreOrdered := by
  intro cells th h
  obtain ⟨heq, hmx, hmn, hle, hge⟩ := thresholds_eq_some h
  have havg : th.avg2 = th.mx + th.mn := congrArg Thresholds.avg2 heq
  have hhigh : th.high8 = 5 * th.mx + 3 * th.mn := congrArg Thresholds.high8 heq
  have hlow : th.low8 = 3 * th.mx + 5 * th.mn := congrArg Thresholds.low8 heq
  have hext : th.mn ≤ th.mx := hge _ hmx
  exact ⟨by omega, by omega, by omega, by omega, by omega, by omega, fun hlt => by omega, fun hflat => by omega,
    fun c hc => ⟨hge c hc, hle c hc⟩, hmn, hmx, fun gain offset hg => thresholds_rescale h hg offset⟩

/-- Settles O35: the mapped cells have the mapped thresholds, and every test of the search comes out the same. -/
theorem boundaryIgnoresOffsetAndGain : Obligations.BoundaryIgnoresOffsetAndGain := by
  intro cells th th' gain offset start limit t34 hg h h'
  obtain rfl : th.rescale gain offset = th' := Option.some.inj ((thresholds_rescale h hg offset).symm.trans h')
  exact nextBoundary_rescale hg offset th cells start limit t34

end Sys2Proof.Machine
end

section
/-! ISHF (43_frequency_classifier.md): its answers on a running block, and the one threshold that tells them apart. -/

namespace Sys2Proof.Machine

open Sys2Proof

/-! ### The answers of ISHF on a running block (43_frequency_classifier.md R100) -/

theorem execIshf_nocfg {s : State} (pos1 pos2 : Nat) (he : s.err = none) (hc : s.timing = none) :
    exec (.ishf pos1 pos2) s = .next (raise .nocfg s) := by
  simp [exec, execIshf, unlessHalted_running he, hc]

theorem execIshf_high {s : State} {r : Timing} {pos1 pos2 : Nat} (he : s.err = none) (hr : s.timing = some r)
    (hd : (pos2 : Int) - pos1 ≤ r.t54.toNat) : exec (.ishf pos1 pos2) s = .next (respond 1 s) := by
  simp [exec, execIshf, unlessHalted_running he, hr, isHighFrequency, hd]

theorem execIshf_low {s : State} {r : Timing} {pos1 pos2 : Nat} (he : s.err = none) (hr : s.timing = some r)
    (hd : (r.t54.toNat : Int) < pos2 - pos1) : exec (.ishf pos1 pos2) s = .next (respond 0 s) := by
  simp [exec, execIshf, unlessHalted_running he, hr, isHighFrequency, Int.not_le.mpr hd]

/-! ### The threshold (43_frequency_classifier.md R101) -/

/-- ISHF completes with 1 or 0 as the difference is at most T54 or greater. -/
theorem execIshf_resp {s : State} {r : Timing} (pos1 pos2 : Nat) (he : s.err = none) (hr : s.timing = some r) :
    ∃ t, exec (.ishf pos1 pos2) s = .next t ∧
      t.resp = if (pos2 : Int) - pos1 ≤ r.t54.toNat then okResponse 1 else okResponse 0 := by
  split_ifs with hd
  · exact ⟨_, execIshf_high he hr hd, responseWord_ok 1⟩
  · exact ⟨_, execIshf_low he hr (Int.not_le.mp hd), responseWord_ok 0⟩

/-- A condition foretells the answer of ISHF exactly when it says whether the difference is at most T54. -/
theorem execIshf_resp_iff {s : State} {r : Timing} (pos1 pos2 : Nat) (he : s.err = none)
    (hr : s.timing = some r) (p : Prop) [Decidable p] :
    (∃ t, exec (.ishf pos1 pos2) s = .next t ∧ t.resp = if p then okResponse 1 else okResponse 0) ↔
      (p ↔ (pos2 : Int) - pos1 ≤ r.t54.toNat) := by
  obtain ⟨t, ht, hresp⟩ := execIshf_resp pos1 pos2 he hr
  have hne : okResponse 1 ≠ okResponse 0 := by decide
  simp only [ht, Host.Outcome.next.injEq, exists_eq_left', hresp]
  by_cases hp : p
  · simp only [hp, if_true, true_iff, hne.ite_eq_left_iff]
  · simp only [hp, if_false, false_iff, hne.ite_eq_right_iff]

/-- Two bounds accept the same differences of 16-bit positions when they are equal, or when both accept the greatest
difference. The lesser bound's successor would tell different bounds apart. -/
theorem sameDifferences_iff (k n : Nat) :
    (∀ pos1 pos2 : Nat, pos1 < 2 ^ 16 → pos2 < 2 ^ 16 →
        ((pos2 : Int) - pos1 ≤ k ↔ (pos2 : Int) - pos1 ≤ n)) ↔
      (k = n ∨ (65535 ≤ k ∧ 65535 ≤ n)) := by
  constructor
  · intro h
    by_contra hne
    have hsucc := h 0 (min k n + 1) (by omega) (by omega)
    omega
  · rintro (rfl | ⟨hk, hn⟩) pos1 pos2 h1 h2
    · exact Iff.rfl
    · omega

/-! ### The obligations -/

/-- Settles O38, by the three answers of ISHF. -/
theorem ishfComparesWithT54 : Obligations.IshfComparesWithT54 := by
  intro s pos1 pos2 he
  refine ⟨fun hc => ?_, fun r hr => ⟨fun hd => ?_, fun hd => ?_⟩⟩
  · rw [execIshf_nocfg pos1 pos2 he hc, raise_eq]
    rfl
  · rw [execIshf_high he hr hd, respond_eq]
    rfl
  · rw [execIshf_low he hr hd, respond_eq]
    rfl

/-- Settles O39: `k` foretells every answer when it accepts the same differences as T54. -/
theorem ishfHasExactlyOneThreshold : Obligations.IshfHasExactlyOneThreshold := by
  intro s r k he hr
  simp only [execIshf_resp_iff _ _ he hr]
  exact sameDifferences_iff k r.t54.toNat

end Sys2Proof.Machine
end

section
/-! JUDGE and WORST (44_signal_judge.md): their answers on a running block, JUDGE_DEFAULT as the larger distance, the
levels under WORST, and what JUDGE_FN can influence. -/

namespace Sys2Proof.Machine

open Sys2Proof

/-! ### The answers of JUDGE on a running block (44_signal_judge.md R106) -/

theorem execJudge_nocfg {s : State} (pos1 pos2 : Nat) (hint : Bool) (he : s.err = none) (hc : s.timing = none) :
    exec (.judge pos1 pos2 hint) s = .next (raise .nocfg s) := by
  simp [exec, execJudge, unlessHalted_running he, hc]

theorem execJudge_range {s : State} {r : Timing} {pos1 : Nat} (pos2 : Nat) (hint : Bool) (he : s.err = none)
    (hr : s.timing = some r) (hpos : windowLength s ≤ pos1 + r.t54.toNat) :
    exec (.judge pos1 pos2 hint) s = .next (raise .range s) := by
  simp [exec, execJudge, unlessHalted_running he, hr, hpos]

theorem execJudge_unreadable {s : State} {r : Timing} {pos1 : Nat} {e : ErrorCode} (pos2 : Nat) (hint : Bool)
    (he : s.err = none) (hr : s.timing = some r) (hpos : pos1 + r.t54.toNat < windowLength s)
    (hread : readRange s r pos1 = .error e) : exec (.judge pos1 pos2 hint) s = .next (raise e s) := by
  simp [exec, execJudge, unlessHalted_running he, hr, Nat.not_le.mpr hpos, hread]

theorem execJudge_completes {s : State} {r : Timing} {pos1 : Nat} {cells : List Int} {th : Thresholds}
    {s34 s54 : Int} (pos2 : Nat) (hint : Bool) (he : s.err = none) (hr : s.timing = some r)
    (hpos : pos1 + r.t54.toNat < windowLength s) (hread : readRange s r pos1 = .ok cells)
    (hth : thresholds cells = some th) (h34 : sampleAt cells pos1 (pos1 + r.t34.toNat) = some s34)
    (h54 : sampleAt cells pos1 (pos1 + r.t54.toNat) = some s54) :
    exec (.judge pos1 pos2 hint) s =
      .next (respond (levelValue (applyJudge s.judgeFn s34 s54 th.mn th.mx hint)) s) := by
  simp [exec, execJudge, unlessHalted_running he, hr, Nat.not_le.mpr hpos, hread, hth, h34, h54]

/-- A level fits its response value (44_signal_judge.md R105). -/
@[simp] theorem levelValue_toNat (j : SignalJudge) : (levelValue j).toNat = levelNat j := by
  cases j <;> rfl

/-- JUDGE on a fully written range of a running block answers OK with JUDGE_FN of the two sampled cells: both lie in the
range, since `T34 <= T54 < T94`. -/
theorem RangeHolds.execJudge_eq {s : State} {r : Timing} {pos1 limit : Nat} {cell : Nat → Int} {mx mn : Int}
    (h : RangeHolds s r pos1 limit cell mx mn) (pos2 : Nat) (hint : Bool) (he : s.err = none)
    (hr : s.timing = some r) (ho : TimingOrdered r) (hpos : pos1 + r.t54.toNat < windowLength s) :
    exec (.judge pos1 pos2 hint) s = .next (respond (levelValue (applyJudge s.judgeFn
      (cell (pos1 + r.t34.toNat)) (cell (pos1 + r.t54.toNat)) mn mx hint)) s) := by
  obtain ⟨h3454, h5494⟩ := ho
  have hlim : pos1 + r.t54.toNat < limit := by
    rw [← h.searchLimit_eq, searchLimit]
    omega
  exact execJudge_completes (th := thresholdsOf mx mn) pos2 hint he hr hpos h.readRange_eq h.thresholds_eq
    (sampleAt_rangeCells cell (Nat.le_add_right _ _) (by omega))
    (sampleAt_rangeCells cell (Nat.le_add_right _ _) hlim)

/-! ### JUDGE_DEFAULT (44_signal_judge.md R108) -/

/-- The region found by the tests in order is the interval the sample lies in. -/
theorem RegionIs.judgeRegion_eq {mx mn c : Int} {n : Nat} (h : RegionIs mx mn c n) :
    judgeRegion (thresholdsOf mx mn) c = n := by
  rcases h with ⟨rfl, hlow⟩ | ⟨rfl, hlow, havg⟩ | ⟨rfl, hlow, havg, hhigh⟩ | ⟨rfl, hlow, havg, hhigh⟩
  · simp [judgeRegion, thresholdsOf, hlow]
  · simp [judgeRegion, thresholdsOf, Int.not_le.mpr hlow, havg]
  · simp [judgeRegion, thresholdsOf, Int.not_le.mpr hlow, Int.not_lt.mpr havg, hhigh]
  · simp [judgeRegion, thresholdsOf, Int.not_le.mpr hlow, Int.not_lt.mpr havg, Int.not_lt.mpr hhigh]

theorem judgeRegion_le (th : Thresholds) (c : Int) : judgeRegion th c ≤ 3 := by
  unfold judgeRegion
  split_ifs <;> decide

theorem regionDistance_eq_abs (a b : Nat) : (regionDistance a b : Int) = |(a : Int) - b| := by
  rw [regionDistance, abs_eq_max_neg]
  omega

theorem regionDistance_le {a b n : Nat} (ha : a ≤ n) (hb : b ≤ n) : regionDistance a b ≤ n := by
  rw [regionDistance]
  omega

/-- No distance between regions is beyond level D, so the level is the larger distance itself. -/
theorem levelNat_judgeDefault (s34 s54 mn mx : Int) (hint : Bool) :
    levelNat (judgeDefault s34 s54 mn mx hint) =
      max (regionDistance (judgeRegion (thresholdsOf mx mn) s34) (if hint then 0 else 3))
        (regionDistance (judgeRegion (thresholdsOf mx mn) s54) (if hint then 3 else 0)) := by
  refine levelNat_levelOfNat (Nat.lt_succ_of_le (max_le ?_ ?_)) <;>
    exact regionDistance_le (judgeRegion_le _ _) (by split <;> decide)

/-! ### WORST (44_signal_judge.md R110) -/

theorem levelNat_injective : Function.Injective levelNat :=
  Function.LeftInverse.injective levelOfNat_levelNat

/-- The worse of two levels is the one with the larger number. -/
theorem levelNat_combineWorst (a b : SignalJudge) :
    levelNat (combineWorst a b) = max (levelNat a) (levelNat b) := by
  rw [combineWorst, apply_ite levelNat, max_def]

theorem combineWorst_comm (a b : SignalJudge) : combineWorst a b = combineWorst b a :=
  levelNat_injective (by simp only [levelNat_combineWorst, max_comm])

theorem combineWorst_assoc (a b c : SignalJudge) :
    combineWorst (combineWorst a b) c = combineWorst a (combineWorst b c) :=
  levelNat_injective (by simp only [levelNat_combineWorst, max_assoc])

theorem combineWorst_self (a : SignalJudge) : combineWorst a a = a := ite_self a

/-- A is the least level. -/
theorem A_combineWorst (a : SignalJudge) : combineWorst .A a = a := if_pos (Nat.zero_le _)

theorem execWorst_completes {s : State} (a b : SignalJudge) (he : s.err = none) :
    exec (.worst a b) s = .next (respond (levelValue (combineWorst a b)) s) :=
  unlessHalted_running he _

/-! ### What JUDGE_FN can influence (44_signal_judge.md R109)

A command does not depend on JUDGE_FN when replacing it before the command or after it comes to the same. -/

/-- The state of a block instantiated with another JUDGE_FN. -/
def withJudgeFn (j : JudgeFn) (s : State) : State := { s with judgeFn := j }

/-- A result with another JUDGE_FN in its next state. -/
def resultWithJudgeFn (j : JudgeFn) : Result → Result
  | .next t => .next (withJudgeFn j t)
  | .fault r => .fault r
  | .refused r => .refused r

section JudgeFn

variable (j : JudgeFn) (s : State)

@[simp] theorem withJudgeFn_timing : (withJudgeFn j s).timing = s.timing := rfl
@[simp] theorem cfgValid_withJudgeFn : cfgValid (withJudgeFn j s) = cfgValid s := rfl
@[simp] theorem windowLength_withJudgeFn : windowLength (withJudgeFn j s) = windowLength s := rfl
@[simp] theorem searchLimit_withJudgeFn (t : Timing) (start : Nat) :
    searchLimit (withJudgeFn j s) t start = searchLimit s t start := rfl
@[simp] theorem readRange_withJudgeFn (t : Timing) (start : Nat) :
    readRange (withJudgeFn j s) t start = readRange s t start := readCells_congr fun _ _ => rfl
@[simp] theorem registerValue_withJudgeFn (reg : Nat) :
    registerValue (withJudgeFn j s) reg = registerValue s reg := by
  unfold registerValue
  split <;> rfl

end JudgeFn

theorem unlessHalted_withJudgeFn {j : JudgeFn} {s : State} {r r' : Result} (h : r' = resultWithJudgeFn j r) :
    unlessHalted (withJudgeFn j s) r' = resultWithJudgeFn j (unlessHalted s r) := by
  subst h
  by_cases he : s.err = none
  · rw [unlessHalted_running he, unlessHalted_running (s := withJudgeFn j s) he]
  · rw [unlessHalted_halted he, unlessHalted_halted (s := withJudgeFn j s) he]
    rfl

theorem execRdreg_withJudgeFn (j : JudgeFn) (reg : Nat) (s : State) :
    execRdreg reg (withJudgeFn j s) = resultWithJudgeFn j (execRdreg reg s) := by
  simp only [execRdreg, registerValue_withJudgeFn]
  split_ifs
  · cases registerValue s reg <;> rfl
  · apply unlessHalted_withJudgeFn
    cases registerValue s reg <;> rfl

theorem execNextb_withJudgeFn (j : JudgeFn) (pos : Nat) (s : State) :
    execNextb pos (withJudgeFn j s) = resultWithJudgeFn j (execNextb pos s) := by
  apply unlessHalted_withJudgeFn
  simp only [withJudgeFn_timing, windowLength_withJudgeFn, readRange_withJudgeFn, searchLimit_withJudgeFn]
  cases s.timing with
  | none => rfl
  | some t =>
    dsimp only
    split
    · rfl
    · cases readRange s t pos with
      | error e => rfl
      | ok cells =>
        dsimp only
        split <;> rfl

/-- No command but JUDGE looks at JUDGE_FN. -/
theorem exec_withJudgeFn (j : JudgeFn) {i : Instr} (s : State) (hj : ∀ p q h, i ≠ .judge p q h) :
    exec i (withJudgeFn j s) = resultWithJudgeFn j (exec i s) := by
  cases i with
  | config sr lf =>
    apply unlessHalted_withJudgeFn
    rw [cfgValid_withJudgeFn]
    split_ifs <;> rfl
  | rdreg reg => exact execRdreg_withJudgeFn j reg s
  | wsamp idx val =>
    apply unlessHalted_withJudgeFn
    rw [windowLength_withJudgeFn]
    split_ifs <;> rfl
  | nextb pos => exact execNextb_withJudgeFn j pos s
  | ishf pos1 pos2 =>
    apply unlessHalted_withJudgeFn
    rw [withJudgeFn_timing]
    cases s.timing <;> rfl
  | judge pos1 pos2 hint => exact absurd rfl (hj pos1 pos2 hint)
  | worst a b => exact unlessHalted_withJudgeFn rfl
  | srst => rfl

/-- JUDGE takes the same branch with any JUDGE_FN; only the level it answers can differ. -/
theorem execJudge_withJudgeFn (j : JudgeFn) {pos1 pos2 : Nat} {hint : Bool} {s t : State}
    (h : exec (.judge pos1 pos2 hint) s = .next t) :
    ∃ u, exec (.judge pos1 pos2 hint) (withJudgeFn j s) = .next u ∧
      u = { withJudgeFn j t with resp := u.resp, responses := u.responses } := by
  rcases unlessHalted_next h with ⟨he, rfl⟩ | ⟨he, h⟩
  · exact ⟨_, unlessHalted_halted (s := withJudgeFn j s) he _, rfl⟩
  · split at h
    · rename_i hc
      cases h
      exact ⟨_, execJudge_nocfg (s := withJudgeFn j s) pos1 pos2 hint he hc, rfl⟩
    · rename_i r hr
      split at h
      · rename_i hpos
        cases h
        exact ⟨_, execJudge_range (s := withJudgeFn j s) pos2 hint he hr hpos, rfl⟩
      · rename_i hpos
        have hpos := Nat.not_le.mp hpos
        split at h
        · rename_i e hread
          cases h
          rw [← readRange_withJudgeFn j] at hread
          exact ⟨_, execJudge_unreadable (s := withJudgeFn j s) pos2 hint he hr hpos hread, rfl⟩
        · rename_i cells hread
          rw [← readRange_withJudgeFn j] at hread
          split at h
          · rename_i hth h34 h54
            cases h
            exact ⟨_, execJudge_completes (s := withJudgeFn j s) pos2 hint he hr hpos hread hth h34 h54, rfl⟩
          · cases h

/-! ### The obligations -/

/-- Settles O40, by the three guards of JUDGE; the range read fails at the empty cell. -/
theorem judgeErrorsInOrder : Obligations.JudgeErrorsInOrder := by
  intro s pos1 pos2 hint he
  refine ⟨fun hc => ?_, fun r hr hpos => ?_, fun r hr hpos ⟨i, hlo, hhi, hi⟩ => ?_⟩
  · rw [execJudge_nocfg pos1 pos2 hint he hc, raise_eq]
    rfl
  · rw [execJudge_range pos2 hint he hr hpos, raise_eq]
    rfl
  · rw [execJudge_unreadable pos2 hint he hr hpos (readRange_eq_uninit hlo hhi hi), raise_eq]
    rfl

/-- Settles O41: the level is `applyJudge` of the sampled cells, which is either JUDGE_FN by its definition. -/
theorem judgeAnswersItsFunction : Obligations.JudgeAnswersItsFunction := by
  intro s r pos1 pos2 limit hint cell mx mn he hr ho hpos h
  refine ⟨applyJudge s.judgeFn (cell (pos1 + r.t34.toNat)) (cell (pos1 + r.t54.toNat)) mn mx hint, ?_,
    fun hfree => by rw [hfree, applyJudge], fun hdefault => by rw [hdefault, applyJudge]⟩
  rw [h.execJudge_eq pos2 hint he hr ho hpos, respond_eq, levelValue_toNat]

/-- Settles O42: the regions are those of the two intervals, and the distance of regions is the absolute difference. -/
theorem judgeDefaultIsTheWorseDistance : Obligations.JudgeDefaultIsTheWorseDistance := by
  intro s34 s54 mn mx hint r34 r54 h34 h54
  rw [levelNat_judgeDefault, h34.judgeRegion_eq, h54.judgeRegion_eq]
  cases hint <;> simp [regionDistance_eq_abs]

/-- Settles O43: JUDGE takes the same branch, and the other commands do not look at JUDGE_FN. -/
theorem nothingDependsOnTheJudgeFunction : Obligations.NothingDependsOnTheJudgeFunction := by
  intro i s t j h
  by_cases hi : ∃ p q b, i = .judge p q b
  · obtain ⟨p, q, b, rfl⟩ := hi
    obtain ⟨u, hu, heq⟩ := execJudge_withJudgeFn j h
    exact ⟨u, hu, heq, fun hne => absurd rfl (hne p q b)⟩
  · have hne : ∀ p q b, i ≠ .judge p q b := fun p q b e => hi ⟨p, q, b, e⟩
    exact ⟨withJudgeFn j t, (exec_withJudgeFn j s hne).trans (congrArg (resultWithJudgeFn j) h), rfl,
      fun _ => ⟨rfl, rfl⟩⟩

/-- Settles O44: the worse level has the larger number, so WORST inherits the algebra of the maximum. -/
theorem worstAnswersTheLargerLevel : Obligations.WorstAnswersTheLargerLevel := by
  refine ⟨fun s a b he => ?_, combineWorst_comm, combineWorst_assoc,
    fun a => ⟨A_combineWorst a, ?_, combineWorst_self a⟩⟩
  · rw [execWorst_completes a b he, respond_eq, levelValue_toNat, levelNat_combineWorst]
  · rw [combineWorst_comm, A_combineWorst]

end Sys2Proof.Machine
end

section
/-! The common semantics (45_common_semantics.md): the answer and the next state depend on the state of the block and the
word alone (R115), so on neither the latch REG.RESP (10_state.md R21) nor the host's lists. -/

namespace Sys2Proof.Machine

open Sys2Proof

/-! ### What the latch and the host can influence

A command reads neither when replacing them before the command comes to the same as handing its answer to the other
host. -/

/-- The same block with other contents of the latch, before another host. -/
def beforeHost (w : Word) (cmds resps : List Word) (s : State) : State :=
  { s with resp := w, commands := cmds, responses := resps }

/-- A result whose answer the other host has been given. -/
def resultBeforeHost (cmds resps : List Word) : Result → Result
  | .next t => .next (beforeHost t.resp cmds (resps ++ [t.resp]) t)
  | .fault r => .fault r
  | .refused r => .refused r

section BeforeHost

variable (w : Word) (cmds resps : List Word) (s : State)

@[simp] theorem beforeHost_timing : (beforeHost w cmds resps s).timing = s.timing := rfl
@[simp] theorem beforeHost_judgeFn : (beforeHost w cmds resps s).judgeFn = s.judgeFn := rfl
@[simp] theorem cfgValid_beforeHost : cfgValid (beforeHost w cmds resps s) = cfgValid s := rfl
@[simp] theorem windowLength_beforeHost : windowLength (beforeHost w cmds resps s) = windowLength s := rfl
@[simp] theorem searchLimit_beforeHost (t : Timing) (start : Nat) :
    searchLimit (beforeHost w cmds resps s) t start = searchLimit s t start := rfl
@[simp] theorem readRange_beforeHost (t : Timing) (start : Nat) :
    readRange (beforeHost w cmds resps s) t start = readRange s t start := readCells_congr fun _ _ => rfl
@[simp] theorem registerValue_beforeHost (reg : Nat) :
    registerValue (beforeHost w cmds resps s) reg = registerValue s reg := by
  unfold registerValue
  split <;> rfl

variable {w cmds resps s}

/-- The halted check reads neither the latch nor the host's lists. -/
theorem unlessHalted_beforeHost {r r' : Result} (h : r' = resultBeforeHost cmds resps r) :
    unlessHalted (beforeHost w cmds resps s) r' = resultBeforeHost cmds resps (unlessHalted s r) := by
  subst h
  by_cases he : s.err = none
  · rw [unlessHalted_running he, unlessHalted_running (s := beforeHost w cmds resps s) he]
  · rw [unlessHalted_halted he, unlessHalted_halted (s := beforeHost w cmds resps s) he]
    rfl

variable (w cmds resps s)

theorem execRdreg_beforeHost (reg : Nat) :
    execRdreg reg (beforeHost w cmds resps s) = resultBeforeHost cmds resps (execRdreg reg s) := by
  simp only [execRdreg, registerValue_beforeHost]
  split_ifs
  · cases registerValue s reg <;> rfl
  · apply unlessHalted_beforeHost
    cases registerValue s reg <;> rfl

theorem execNextb_beforeHost (pos : Nat) :
    execNextb pos (beforeHost w cmds resps s) = resultBeforeHost cmds resps (execNextb pos s) := by
  apply unlessHalted_beforeHost
  simp only [beforeHost_timing, windowLength_beforeHost, readRange_beforeHost, searchLimit_beforeHost]
  cases s.timing with
  | none => rfl
  | some t =>
    dsimp only
    split
    · rfl
    · cases readRange s t pos with
      | error e => rfl
      | ok cells =>
        dsimp only
        split <;> rfl

theorem execJudge_beforeHost (pos1 pos2 : Nat) (hint : Bool) :
    execJudge pos1 pos2 hint (beforeHost w cmds resps s) =
      resultBeforeHost cmds resps (execJudge pos1 pos2 hint s) := by
  apply unlessHalted_beforeHost
  simp only [beforeHost_timing, windowLength_beforeHost, readRange_beforeHost, beforeHost_judgeFn]
  cases s.timing with
  | none => rfl
  | some t =>
    dsimp only
    split
    · rfl
    · cases readRange s t pos1 with
      | error e => rfl
      | ok cells =>
        dsimp only
        split <;> rfl

/-- No command reads REG.RESP, what the host has been given or what it has yet to send. -/
theorem exec_beforeHost (i : Instr) :
    exec i (beforeHost w cmds resps s) = resultBeforeHost cmds resps (exec i s) := by
  cases i with
  | config sr lf =>
    apply unlessHalted_beforeHost
    rw [cfgValid_beforeHost]
    split_ifs <;> rfl
  | rdreg reg => exact execRdreg_beforeHost w cmds resps s reg
  | wsamp idx val =>
    apply unlessHalted_beforeHost
    rw [windowLength_beforeHost]
    split_ifs <;> rfl
  | nextb pos => exact execNextb_beforeHost w cmds resps s pos
  | ishf pos1 pos2 =>
    apply unlessHalted_beforeHost
    rw [beforeHost_timing]
    cases s.timing <;> rfl
  | judge pos1 pos2 hint => exact execJudge_beforeHost w cmds resps s pos1 pos2 hint
  | worst a b => exact unlessHalted_beforeHost rfl
  | srst => rfl

end BeforeHost

/-! ### The obligation -/

/-- Settles O47: the command answers the other host as it answers this one, and latches the same word. -/
theorem answerIgnoresTheLatchAndTheHost : Obligations.AnswerIgnoresTheLatchAndTheHost := by
  intro i s t w cmds resps h
  exact (exec_beforeHost w cmds resps s i).trans (congrArg (resultBeforeHost cmds resps) h)

end Sys2Proof.Machine
end

section
/-! Exceptions (60_exceptions.md): the common checks and the halted block, what an error writes, and the codes each
command can answer. -/

namespace Sys2Proof.Machine

open Sys2Proof

/-! ### The halted block (60_exceptions.md R124) -/

/-- RDREG 0 answers STATUS in every state (40_timing_generator.md R73). -/
theorem exec_rdreg_zero (s : State) : exec (.rdreg 0) s = .next (respond (statusWord s) s) := rfl

theorem exec_halted {i : Instr} {s : State} (hs : s.err ≠ none) (hi : i ≠ .srst) (h0 : i ≠ .rdreg 0) :
    exec i s = .next (refuseHalted s) := by
  cases i with
  | srst => exact absurd rfl hi
  | rdreg reg =>
    have hr : reg ≠ 0 := fun h => h0 (congrArg Instr.rdreg h)
    exact (if_neg hr).trans (unlessHalted_halted hs _)
  | _ => exact unlessHalted_halted hs _

/-! ### A step by the word it takes (60_exceptions.md R122) -/

section Step

variable {s : State} {w : Word} {rest : List Word}

theorem step_of_decode_ok {i : Instr} (hc : s.commands = w :: rest) (hd : decode w = .ok i) :
    step s = exec i { s with commands := rest } := by
  rw [step_cons hc, hd]

theorem step_of_decode_error {r : Reject} (hc : s.commands = w :: rest) (hd : decode w = .error r) :
    step s = illegalWord { s with commands := rest } := by
  rw [step_cons hc, hd]

theorem step_illegal {r : Reject} (hc : s.commands = w :: rest) (hd : decode w = .error r) (he : s.err = none) :
    step s = .next (raise .illegal { s with commands := rest }) := by
  rw [step_of_decode_error hc hd]
  exact unlessHalted_running (s := { s with commands := rest }) he _

theorem step_srst (hc : s.commands = 0x8000000000000000 :: rest) :
    step s = .next (respond 0 (resetBlock { s with commands := rest })) :=
  step_of_decode_ok hc (i := .srst) (by decide)

theorem step_rdreg_zero (hc : s.commands = 0x2000000000000000 :: rest) :
    step s = .next (respond (statusWord s) { s with commands := rest }) :=
  step_of_decode_ok hc (i := .rdreg 0) (by decide)

/-- The two excepted commands have one word each, so that comparing words or commands is the same. -/
theorem step_halted (hc : s.commands = w :: rest) (hs : s.err ≠ none) (hsrst : w ≠ 0x8000000000000000)
    (hstat : w ≠ 0x2000000000000000) : step s = .next (refuseHalted { s with commands := rest }) := by
  cases hd : decode w with
  | error r =>
    rw [step_of_decode_error hc hd]
    exact unlessHalted_halted (s := { s with commands := rest }) hs _
  | ok i =>
    rw [step_of_decode_ok hc hd]
    refine exec_halted hs ?_ ?_
    · rintro rfl
      exact hsrst (decode_eq_srst hd)
    · rintro rfl
      exact hstat (decode_eq_rdreg_zero hd)

/-- Without SRST a halted block answers the word and does nothing else. -/
theorem step_halted_answers (hc : s.commands = w :: rest) (hs : s.err ≠ none) (hsrst : w ≠ 0x8000000000000000) :
    ∃ r, step s = .next (answer r { s with commands := rest }) := by
  by_cases hstat : w = 0x2000000000000000
  · subst hstat
    exact ⟨_, step_rdreg_zero hc⟩
  · exact ⟨_, step_halted hc hs hsrst hstat⟩

end Step

/-! ### What an error writes (60_exceptions.md R121) -/

/-- An answer with a code 1 to 7 is an error raised on a running block: every other effect answers OK or ERR_HALTED. -/
theorem ExecEffect.eq_raise {i : Instr} {s t : State} (h : ExecEffect i s t) (h1 : 1 ≤ responseCode t.resp)
    (h7 : responseCode t.resp ≤ 7) : s.err = none ∧ ∃ e, t = raise e s := by
  cases h with
  | raised e he => exact ⟨he, e, rfl⟩
  | refused he =>
    rw [refuseHalted_resp, responseCode_responseWord] at h7
    exact absurd h7 (by decide)
  | _ =>
    rw [respond_resp, responseCode_responseWord] at h1
    exact absurd h1 (by decide)

/-! ### The codes a command can answer (60_exceptions.md R133) -/

/-- A result that, if it is a next state, has answered one of the codes. -/
def AnswersIn (codes : List Nat) (r : Result) : Prop := ∀ t, r = .next t → responseCode t.resp ∈ codes

namespace AnswersIn

variable {codes : List Nat} {s : State}

theorem of_respond (h : 0 ∈ codes) (v : BitVec 32) : AnswersIn codes (.next (respond v s)) := by
  rintro _ ⟨⟩
  rwa [respond_resp, responseCode_responseWord]

theorem of_raise {e : ErrorCode} (h : (errorNumber e).toNat ∈ codes) : AnswersIn codes (.next (raise e s)) := by
  rintro _ ⟨⟩
  rwa [raise_resp, responseCode_responseWord]

theorem of_fault (r : Fault) : AnswersIn codes (.fault r) := nofun

/-- The halted check adds ERR_HALTED to the codes. -/
theorem of_unlessHalted {r : Result} (h15 : 15 ∈ codes) (h : AnswersIn codes r) :
    AnswersIn codes (unlessHalted s r) := by
  intro t ht
  rcases unlessHalted_next ht with ⟨-, rfl⟩ | ⟨-, hr⟩
  · rwa [refuseHalted_resp, responseCode_responseWord]
  · exact h t hr

end AnswersIn

theorem readRange_eq_error {s : State} {r : Timing} {pos : Nat} {e : ErrorCode}
    (h : readRange s r pos = .error e) : e = .uninit := (readCells_eq_error.mp h).1

theorem configuredValue_eq_error {s : State} {get : Timing → BitVec 32} {e : ErrorCode}
    (h : configuredValue s get = .error e) : e = .nocfg := by
  unfold configuredValue at h
  split at h <;> cases h
  rfl

theorem registerValue_eq_error {s : State} {reg : Nat} {e : ErrorCode} (h : registerValue s reg = .error e) :
    (errorNumber e).toNat ∈ codesOf (.rdreg reg) := by
  match reg with
  | 0 | 6 => cases h
  | 1 | 2 | 3 | 4 | 5 =>
    obtain rfl := configuredValue_eq_error h
    decide
  | n + 7 =>
    cases h
    simp [codesOf, errorNumber]

/-- RDREG completes for registers 0 to 6 only (40_timing_generator.md R73). -/
theorem zero_mem_codesOf_rdreg {s : State} {reg : Nat} {v : BitVec 32} (h : registerValue s reg = .ok v) :
    0 ∈ codesOf (.rdreg reg) := by
  match reg with
  | 0 | 1 | 2 | 3 | 4 | 5 | 6 => decide
  | n + 7 => cases h

theorem haltedCode_mem_codesOf_rdreg {reg : Nat} (h : reg ≠ 0) : 15 ∈ codesOf (.rdreg reg) := by
  simp only [codesOf, if_neg h]
  split_ifs <;> decide

theorem execRdreg_answersIn (reg : Nat) (s : State) : AnswersIn (codesOf (.rdreg reg)) (execRdreg reg s) := by
  by_cases hr : reg = 0
  · subst hr
    exact .of_respond (by decide) _
  · simp only [execRdreg, if_neg hr]
    refine .of_unlessHalted (haltedCode_mem_codesOf_rdreg hr) ?_
    cases hv : registerValue s reg with
    | ok v => exact .of_respond (zero_mem_codesOf_rdreg hv) v
    | error e => exact .of_raise (registerValue_eq_error hv)

theorem execConfig_answersIn (sr lf : Nat) (s : State) : AnswersIn [0, 3, 4, 15] (execConfig sr lf s) := by
  refine .of_unlessHalted (by decide) ?_
  split_ifs
  · exact .of_raise (by decide)
  · exact .of_raise (by decide)
  · exact .of_respond (by decide) _

theorem execWsamp_answersIn (idx : Nat) (val : Int) (s : State) :
    AnswersIn [0, 5, 7, 15] (execWsamp idx val s) := by
  refine .of_unlessHalted (by decide) ?_
  split_ifs
  · exact .of_raise (by decide)
  · exact .of_raise (by decide)
  · exact .of_respond (by decide) _

theorem execNextb_answersIn (pos : Nat) (s : State) : AnswersIn [0, 2, 5, 6, 15] (execNextb pos s) := by
  refine .of_unlessHalted (by decide) ?_
  split
  · exact .of_raise (by decide)
  · split_ifs
    · exact .of_raise (by decide)
    · split
      next e he =>
        obtain rfl := readRange_eq_error he
        exact .of_raise (by decide)
      next cells _ =>
        split
        · exact .of_fault _
        · exact .of_respond (by decide) _

theorem execJudge_answersIn (pos1 pos2 : Nat) (hint : Bool) (s : State) :
    AnswersIn [0, 2, 5, 6, 15] (execJudge pos1 pos2 hint s) := by
  refine .of_unlessHalted (by decide) ?_
  split
  · exact .of_raise (by decide)
  · split_ifs
    · exact .of_raise (by decide)
    · split
      next e he =>
        obtain rfl := readRange_eq_error he
        exact .of_raise (by decide)
      next cells _ =>
        split
        · exact .of_respond (by decide) _
        · exact .of_fault _

theorem execIshf_answersIn (pos1 pos2 : Nat) (s : State) : AnswersIn [0, 2, 15] (execIshf pos1 pos2 s) := by
  refine .of_unlessHalted (by decide) ?_
  split
  · exact .of_raise (by decide)
  · exact .of_respond (by decide) _

theorem execWorst_answersIn (a b : SignalJudge) (s : State) : AnswersIn [0, 15] (execWorst a b s) :=
  .of_unlessHalted (by decide) (.of_respond (by decide) _)

/-- Every command answers within its row of 60_exceptions.md R133. -/
theorem exec_answersIn (i : Instr) (s : State) : AnswersIn (codesOf i) (exec i s) := by
  cases i with
  | config sr lf => exact execConfig_answersIn sr lf s
  | rdreg reg => exact execRdreg_answersIn reg s
  | wsamp idx val => exact execWsamp_answersIn idx val s
  | nextb pos => exact execNextb_answersIn pos s
  | ishf pos1 pos2 => exact execIshf_answersIn pos1 pos2 s
  | judge pos1 pos2 hint => exact execJudge_answersIn pos1 pos2 hint s
  | worst a b => exact execWorst_answersIn a b s
  | srst => exact .of_respond (by decide) _

/-! ### The obligations -/

/-- Settles O13, by induction on the number of steps: each one answers its word and leaves the rest of the halted block
alone. -/
theorem firstErrorSticksUntilReset : Obligations.FirstErrorSticksUntilReset := by
  intro k
  induction k with
  | zero =>
    intro s t e he _ h
    cases h
    exact ⟨he, rfl, rfl⟩
  | succ k ih =>
    intro s t e he hw h
    cases hc : s.commands with
    | nil =>
      rw [run_idle hc] at h
      cases h
      exact ⟨he, rfl, rfl⟩
    | cons w rest =>
      rw [hc, List.take_succ_cons, List.forall_mem_cons] at hw
      obtain ⟨hsrst, hrest⟩ := hw
      have hs : s.err ≠ none := by simp [he]
      obtain ⟨r, hr⟩ := step_halted_answers hc hs hsrst
      rw [run_succ_next hr] at h
      exact ih (answer r { s with commands := rest }) t e he hrest h

/-- Settles O11, from the step by the word it takes. -/
theorem commonChecksInOrder : Obligations.CommonChecksInOrder := by
  intro s w rest hc
  refine ⟨fun _ hw => ?_, fun _ hw => ?_, fun hs hsrst hstat => ?_, fun he hill => ?_, fun _ i hd => ?_⟩
  · subst hw
    rw [step_srst hc, respond_eq]
    rfl
  · subst hw
    rw [step_rdreg_zero hc, respond_eq]
  · rw [step_halted hc hs hsrst hstat, refuseHalted_eq]
  · cases hd : decode w with
    | ok i => exact absurd hd (hill i)
    | error r =>
      rw [step_illegal hc hd he, raise_eq]
      rfl
  · exact step_of_decode_ok hc hd

/-- Settles O12: the step is one command, and only raising an error answers such a code. -/
theorem errorWritesStatusAndResponseOnly : Obligations.ErrorWritesStatusAndResponseOnly := by
  intro s t w rest hc h h1 h7
  obtain ⟨i, -, hi⟩ := step_eq_exec hc
  obtain ⟨he, e, rfl⟩ := (exec_next (hi ▸ h)).eq_raise h1 h7
  refine ⟨he, rfl, e, ?_, ?_⟩
  · rw [raise_resp, responseCode_responseWord]
  · rw [raise_resp, responseCode_responseWord, raise_eq]

/-- Settles O15, command by command. -/
theorem commandsAnswerOnlyTheirCodes : Obligations.CommandsAnswerOnlyTheirCodes := exec_answersIn

/-- Settles O24: the halted check refuses every command that makes it, and STATUS holds the error. -/
theorem haltedBlockRefusesCommands : Obligations.HaltedBlockRefusesCommands := by
  intro s hs
  refine ⟨fun i hi h0 => ?_, fun e he => ⟨(statusWord s).toNat, ?_, ?_⟩⟩
  · rw [exec_halted hs hi h0, refuseHalted_eq]
  · rw [exec_rdreg_zero, respond_eq]
  · rw [statusWord_toNat, errField_of_some he]

/-- Settles O10: there is no word to take. -/
theorem idleBlockHoldsItsState : Obligations.IdleBlockHoldsItsState := fun _ => step_nil

end Sys2Proof.Machine
end

section
/-! Reset and hazards (70_reset_and_hazards.md): the step as one command, which responses tell a halted block, and runs to
the last word. -/

namespace Sys2Proof.Machine

open Sys2Proof

/-! ### The word withFetchWord places -/

/-- A word placed at its full width is offered as it is. -/
theorem withFetchWord_toNat (s : State) (w : Word) : s.withFetchWord 64 w.toNat = offerCommand w s := by
  rw [State.withFetchWord, Nat.mod_eq_of_lt w.isLt, BitVec.ofNat_toNat, BitVec.setWidth_eq]

/-- Taking the word just offered gives the state back, so that the step is its command on that state. -/
theorem step_offerCommand {w : Word} {i : Instr} (s : State) (hd : decode w = .ok i) :
    step (offerCommand w s) = exec i s :=
  step_of_decode_ok (offerCommand_commands w s) hd

/-! ### A halted block and its answers (70_reset_and_hazards.md R166) -/

/-- But for SRST, a command leaves the block running exactly when it ran before and the answer is OK. -/
theorem ExecEffect.err_eq_none_iff {i : Instr} {s t : State} (h : ExecEffect i s t) (hi : i ≠ .srst) :
    t.err = none ↔ s.err = none ∧ responseCode t.resp = 0 := by
  cases h with
  | answered v he => simp
  | refused he => simp [he]
  | raised e he =>
    obtain ⟨h1, -⟩ := errorNumber_range e
    have hne : (errorNumber e).toNat ≠ 0 := by omega
    rw [raise_err, raise_resp, responseCode_responseWord]
    simp [hne]
  | configured sr lf hi' he hc hs hl => simp
  | written idx val hi' he hx hlo hhi => simp
  | reset hi' => exact absurd hi' hi

/-- A command but SRST keeps the agreement of STATUS.ERR with the answers: both gain its answer. -/
theorem ExecEffect.cleanWhileRunning {i : Instr} {s t : State} (h : ExecEffect i s t) (hi : i ≠ .srst)
    (hs : CleanWhileRunning s) : CleanWhileRunning t := by
  rw [CleanWhileRunning, h.err_eq_none_iff hi, h.responses_eq, List.forall_mem_append, List.forall_mem_singleton]
  exact and_congr_left' hs

/-- A step on a word other than SRST's has the effect of a command other than SRST. -/
theorem step_effect_of_ne_srst {s t : State} {w : Word} {rest : List Word} (hc : s.commands = w :: rest)
    (hw : w ≠ 0x8000000000000000) (h : step s = .next t) :
    ∃ i, i ≠ .srst ∧ ExecEffect i { s with commands := rest } t := by
  cases hd : decode w with
  | ok i =>
    rw [step_of_decode_ok hc hd] at h
    exact ⟨i, fun hi => hw (decode_eq_srst (hi ▸ hd)), exec_next h⟩
  | error r =>
    rw [step_of_decode_error hc hd, illegalWord_eq_exec] at h
    exact ⟨.rdreg 7, by decide, exec_next h⟩

/-! ### Runs to the last word (70_reset_and_hazards.md R166, R168) -/

/-- Exact timing registers are in order, and a command stops on unordered ones only. -/
theorem step_completes {s : State} (hs : TimingLegal s) : ∃ t, step s = .next t := by
  cases hc : s.commands with
  | nil => exact ⟨s, step_nil hc⟩
  | cons w rest =>
    obtain ⟨i, -, he⟩ := step_eq_exec hc
    rw [he]
    rcases exec_completesIfOrdered i { s with commands := rest } with h | ⟨-, r, hr, hno⟩
    · exact h
    · exact absurd (hs.ordered hr) hno

theorem step_commands {s t : State} (h : step s = .next t) : t.commands = s.commands.tail := by
  cases hc : s.commands with
  | nil =>
    rw [step_nil hc] at h
    cases h
    exact hc
  | cons w rest => exact (everyWordIsAnsweredOnce s t w rest hc h).1

/-- A step trades a word to take for an answer given, or does nothing. -/
theorem step_words_and_answers {s t : State} (h : step s = .next t) :
    t.responses.length + t.commands.length = s.responses.length + s.commands.length := by
  cases hc : s.commands with
  | nil =>
    rw [step_nil hc] at h
    cases h
    rw [hc]
  | cons w rest =>
    obtain ⟨hcmd, hresp⟩ := everyWordIsAnsweredOnce s t w rest hc h
    rw [hcmd, hresp, List.length_append, List.length_singleton, List.length_cons]
    omega

/-- From exact timing registers any number of steps completes: as many words are taken, and each is answered. -/
theorem run_completes (k : Nat) {s : State} (hs : TimingLegal s) :
    ∃ t, Host.Core.run Sys2Proof.core k s = .next t ∧ t.commands = s.commands.drop k ∧
      t.responses.length + t.commands.length = s.responses.length + s.commands.length := by
  induction k generalizing s with
  | zero => exact ⟨s, rfl, rfl, rfl⟩
  | succ k ih =>
    obtain ⟨u, hu⟩ := step_completes hs
    obtain ⟨t, hrun, hcmd, hlen⟩ := ih (everyStepKeepsTheTimingExact s u hs hu)
    refine ⟨t, (run_succ_next hu).trans hrun, ?_, hlen.trans (step_words_and_answers hu)⟩
    rw [hcmd, step_commands hu, List.drop_tail]

/-! ### The obligations -/

/-- Settles O53: without SRST the block stops running exactly when an answer is not OK. -/
theorem runIsCleanWhileNotHalted : Obligations.RunIsCleanWhileNotHalted := by
  intro s t hs hsrst h
  cases hc : s.commands with
  | nil =>
    rw [step_nil hc] at h
    cases h
    exact hs
  | cons w rest =>
    obtain ⟨i, hi, he⟩ := step_effect_of_ne_srst hc (fun hw => hsrst rest (hw ▸ hc)) h
    exact he.cleanWhileRunning hi hs

/-- Settles O54: after as many steps as there are words, the words taken are all of them. -/
theorem everyRunIsAnsweredToTheEnd : Obligations.EveryRunIsAnsweredToTheEnd := by
  intro s hs
  refine ⟨fun k => (run_completes k hs).imp fun _ h => h.1, ?_⟩
  obtain ⟨t, hrun, hcmd, hlen⟩ := run_completes s.commands.length hs
  rw [List.drop_length] at hcmd
  rw [hcmd, List.length_nil, Nat.add_zero] at hlen
  exact ⟨t, hrun, hcmd, hlen⟩

/-- Settles O8: the step's branch for a word that decodes. -/
theorem stepRunsTheDecodedCommand : Obligations.StepRunsTheDecodedCommand := fun _ _ _ _ => step_of_decode_ok

/-- Settles O9: the word placed is the command's, and it decodes back. -/
theorem placedWordIsTheNextCommand : Obligations.PlacedWordIsTheNextCommand := by
  intro s i hi
  rw [withFetchWord_toNat, step_offerCommand s (encodedCommandDecodesBack i hi)]

end Sys2Proof.Machine
end
